-- ==== Sys2Proof/Word.lean ====
section
/-! DEFINITION. The word of the machine: a signed integer (00_scope.md R8, R9; 20_memory.md R51, R58). -/

namespace Sys2Proof

/-- A memory word, queue entry, relative base or operand value. The machine computes on exact integers and then asks
whether the result is a word of the configured width (00_scope.md R8, 40_arithmetic.md R112); nothing in it wraps, shifts
or masks, so a word is an integer and not a bit vector (DESIGN CHOICE, entry 2).
For provers: `omega` does not see through this name; `unfold Word at *` first. -/
abbrev Word := Int

end Sys2Proof
end

