-- ==== Sys2Proof/Syntax.lean ====
section
/-! DEFINITION. The instructions: one constructor per row of spec/opcode_table.json, with the addressing mode of each
parameter. Decode reads no parameter word (30_encoding.md R92), so an instruction carries the modes only; the parameter
words stay in memory and operand resolution reads them there (30_encoding.md R93). -/

namespace Sys2Proof

/-- The addressing modes (30_encoding.md R76). -/
inductive Mode where
  /-- Mode digit 0: the parameter word is an address. -/
  | position
  /-- Mode digit 1: the parameter word is the value. -/
  | immediate
  /-- Mode digit 2: the parameter word is an offset from the relative base. -/
  | relative
deriving DecidableEq, Repr

/-- The ten instructions of 30_encoding.md R73. `m1`, `m2`, `m3` are the modes of parameters 1, 2 and 3. -/
inductive Instr where
  /-- Code 1: a, b, dst (40_arithmetic.md R110). -/
  | add (m1 m2 m3 : Mode)
  /-- Code 2: a, b, dst (40_arithmetic.md R111). -/
  | mul (m1 m2 m3 : Mode)
  /-- Code 3: dst (41_io.md R120). -/
  | input (m1 : Mode)
  /-- Code 4: a (41_io.md R121). -/
  | output (m1 : Mode)
  /-- Code 5: a, target (42_jumps.md R130). -/
  | jumpIfTrue (m1 m2 : Mode)
  /-- Code 6: a, target (42_jumps.md R131). -/
  | jumpIfFalse (m1 m2 : Mode)
  /-- Code 7: a, b, dst (43_compare.md R140). -/
  | lessThan (m1 m2 m3 : Mode)
  /-- Code 8: a, b, dst (43_compare.md R141). -/
  | equals (m1 m2 m3 : Mode)
  /-- Code 9: a (44_base.md R150). -/
  | adjustBase (m1 : Mode)
  /-- Code 99: no parameter (45_halt.md R160). -/
  | halt
deriving DecidableEq, Repr

end Sys2Proof
end

