-- ==== Sys2Proof/WellFormed.lean ====
section
/-! DEFINITION. Which instructions an instruction word can stand for: a write target is never immediate
(30_encoding.md R76). -/

namespace Sys2Proof

/-- May a write target have this mode? (30_encoding.md R76: position and relative.) -/
def Mode.writable : Mode → Bool
  | .position => true
  | .immediate => false
  | .relative => true

/-- The write target of add, mul, less-than and equals is parameter 3, of input parameter 1; the others write no memory
(30_encoding.md R73). -/
def Instr.wellFormed : Instr → Bool
  | .add _ _ m3 => m3.writable
  | .mul _ _ m3 => m3.writable
  | .input m1 => m1.writable
  | .output _ => true
  | .jumpIfTrue _ _ => true
  | .jumpIfFalse _ _ => true
  | .lessThan _ _ m3 => m3.writable
  | .equals _ _ m3 => m3.writable
  | .adjustBase _ => true
  | .halt => true

end Sys2Proof
end

