-- ==== Sys2Proof/Decode.lean ====
section
/-! DEFINITION. The instruction decoder, total on every word, and the encoder (30_encoding.md R70 to R76, R92). -/

namespace Sys2Proof

/-- `digit(w, k) = floor(w / 10^k) mod 10`, floored also for negative words (00_scope.md R9, 30_encoding.md R72). `Int`'s
`/` and `%` are the floored pair for a positive divisor. -/
def digit (w : Word) (k : Nat) : Nat := (w / 10 ^ k % 10).toNat

/-- The instruction code `w mod 100`, floored (30_encoding.md R71, R72). -/
def instrCode (w : Word) : Nat := (w % 100).toNat

/-- Why a word is no instruction. -/
inductive DecodeError where
  /-- The instruction code is outside {1, …, 9, 99} (30_encoding.md R74). -/
  | invalidOpcode
  /-- The mode digit of parameter `param` is 3 to 9 (30_encoding.md R76). -/
  | invalidMode (param : Fin 4) (modeDigit : Nat)
  /-- The mode digit of the write target, parameter `param`, is 1 (30_encoding.md R76). -/
  | immediateWrite (param : Fin 4)
deriving DecidableEq, Repr

/-- The mode of parameter `k`, a read operand: its digit is `digit(w, k+1)` (30_encoding.md R71, R76). -/
def decodeReadMode (w : Word) (k : Fin 4) : Except DecodeError Mode :=
  if digit w (k + 1) = 0 then .ok .position
  else if digit w (k + 1) = 1 then .ok .immediate
  else if digit w (k + 1) = 2 then .ok .relative
  else .error (.invalidMode k (digit w (k + 1)))

/-- The mode of parameter `k`, the write target: InvalidMode is tested before ImmediateWrite (30_encoding.md R92). -/
def decodeWriteMode (w : Word) (k : Fin 4) : Except DecodeError Mode :=
  match decodeReadMode w k with
  | .error e => .error e
  | .ok m => if m.writable then .ok m else .error (.immediateWrite k)

/-- Parameters a, b and the write target dst, in parameter order (30_encoding.md R92). -/
def decodeABDst (make : Mode → Mode → Mode → Instr) (w : Word) : Except DecodeError Instr :=
  match decodeReadMode w 1 with
  | .error e => .error e
  | .ok m1 =>
    match decodeReadMode w 2 with
    | .error e => .error e
    | .ok m2 =>
      match decodeWriteMode w 3 with
      | .error e => .error e
      | .ok m3 => .ok (make m1 m2 m3)

/-- Parameters a and target, both read operands. -/
def decodeATarget (make : Mode → Mode → Instr) (w : Word) : Except DecodeError Instr :=
  match decodeReadMode w 1 with
  | .error e => .error e
  | .ok m1 =>
    match decodeReadMode w 2 with
    | .error e => .error e
    | .ok m2 => .ok (make m1 m2)

/-- One read operand a. -/
def decodeA (make : Mode → Instr) (w : Word) : Except DecodeError Instr :=
  match decodeReadMode w 1 with
  | .error e => .error e
  | .ok m1 => .ok (make m1)

/-- One write target dst. -/
def decodeDst (make : Mode → Instr) (w : Word) : Except DecodeError Instr :=
  match decodeWriteMode w 1 with
  | .error e => .error e
  | .ok m1 => .ok (make m1)

/-- The decode stage (30_encoding.md R92) on the whole instruction word. It consults only the digits of the parameters the
instruction has (R75). -/
def decode (w : Word) : Except DecodeError Instr :=
  if instrCode w = 1 then decodeABDst .add w
  else if instrCode w = 2 then decodeABDst .mul w
  else if instrCode w = 3 then decodeDst .input w
  else if instrCode w = 4 then decodeA .output w
  else if instrCode w = 5 then decodeATarget .jumpIfTrue w
  else if instrCode w = 6 then decodeATarget .jumpIfFalse w
  else if instrCode w = 7 then decodeABDst .lessThan w
  else if instrCode w = 8 then decodeABDst .equals w
  else if instrCode w = 9 then decodeA .adjustBase w
  else if instrCode w = 99 then .ok .halt
  else .error .invalidOpcode

/-- The instruction an opcode-table word stands for, as the host numbers its bits. The architecture has no bit numbering
(00_scope.md R9): the bits are read as the instruction word's non-negative value, whatever `nbits` is, and the parameter
words are zeros, which decode does not read (DESIGN CHOICE, entry 11). -/
def decodeTableWord (_nbits w : Nat) : Option Instr :=
  match decode (w : Int) with
  | .ok i => some i
  | .error _ => none

/-! ## The encoder -/

/-- The mode digit of a mode (30_encoding.md R76). -/
def modeDigit : Mode → Nat
  | .position => 0
  | .immediate => 1
  | .relative => 2

/-- The instruction code of an instruction (30_encoding.md R73). -/
def codeOf : Instr → Nat
  | .add _ _ _ => 1
  | .mul _ _ _ => 2
  | .input _ => 3
  | .output _ => 4
  | .jumpIfTrue _ _ => 5
  | .jumpIfFalse _ _ => 6
  | .lessThan _ _ _ => 7
  | .equals _ _ _ => 8
  | .adjustBase _ => 9
  | .halt => 99

/-- The modes of an instruction's parameters, in parameter order. -/
def modesOf : Instr → List Mode
  | .add m1 m2 m3 => [m1, m2, m3]
  | .mul m1 m2 m3 => [m1, m2, m3]
  | .input m1 => [m1]
  | .output m1 => [m1]
  | .jumpIfTrue m1 m2 => [m1, m2]
  | .jumpIfFalse m1 m2 => [m1, m2]
  | .lessThan m1 m2 m3 => [m1, m2, m3]
  | .equals m1 m2 m3 => [m1, m2, m3]
  | .adjustBase m1 => [m1]
  | .halt => []

/-- The parameter count n of an instruction code, `NPARAMS(code)` (30_encoding.md R73); 0 for a code outside the table. -/
def paramCount (code : Nat) : Nat :=
  if code = 1 ∨ code = 2 ∨ code = 7 ∨ code = 8 then 3
  else if code = 5 ∨ code = 6 then 2
  else if code = 3 ∨ code = 4 ∨ code = 9 then 1
  else 0

/-- The number of the write target, `WRITEPARAM(code)`, and 0 when there is none (30_encoding.md R73, R92). -/
def writeParam (code : Nat) : Nat :=
  if code = 1 ∨ code = 2 ∨ code = 7 ∨ code = 8 then 3
  else if code = 3 then 1
  else 0

/-- Is it one of the ten codes of 30_encoding.md R73? -/
def codeDefined (code : Nat) : Bool := decide ((1 ≤ code ∧ code ≤ 9) ∨ code = 99)

/-- The digits of the modes from the units place up: `m1 + 10·m2 + 100·m3`. -/
def encodeModes : List Mode → Int
  | [] => 0
  | m :: ms => modeDigit m + 10 * encodeModes ms

/-- The instruction word `code + 100·m1 + 1000·m2 + 10000·m3`, with the mode digits of absent parameters 0
(30_encoding.md R83). -/
def encode (i : Instr) : Word := codeOf i + 100 * encodeModes (modesOf i)

/-- The words of an instruction with parameter words `params`: the instruction word, then the parameter words in order
(30_encoding.md R70). -/
def encodeWords (i : Instr) (params : List Word) : List Word := encode i :: params

end Sys2Proof
end

