-- ==== Sys2Proof/Config.lean ====
section
/-! DEFINITION. The implementation parameters of 00_scope.md R7. They do not change while a core exists. -/

namespace Sys2Proof

/-- What a fetch at PC = L does (00_scope.md R7, 30_encoding.md R91). -/
inductive EndPolicy where
  /-- The fetch raises EndOfProgram: the policy of this hardware. -/
  | trap
  /-- The fetch reads 0, which decodes as InvalidOpcode. -/
  | extend
deriving DecidableEq, Repr

/-- The parameters of 00_scope.md R7; `none` is the spec's `∞`. -/
structure Config where
  /-- `WORD_BITS`: two's-complement width of a word. -/
  wordBits : Option Nat
  /-- `MEM_CAP`: the number of memory cells. -/
  memCap : Option Nat
  /-- `IQ_CAP`: capacity of the input queue, in words. -/
  iqCap : Option Nat
  /-- `OQ_CAP`: capacity of the output queue, in words. -/
  oqCap : Option Nat
  /-- `END_POLICY`. -/
  endPolicy : EndPolicy
deriving DecidableEq, Repr

/-- "the reading that matches the source's text exactly" (00_scope.md R7): every bound ∞, and `END_POLICY = TRAP` as R7
gives it for this hardware. DESIGN CHOICE (entry 1): the spec leaves the four bounds OPEN. -/
def Config.unbounded : Config :=
  { wordBits := none, memCap := none, iqCap := none, oqCap := none, endPolicy := .trap }

/-- The legal values of the parameters, with the constraint of 00_scope.md R7 that a finite `WORD_BITS` bounds `MEM_CAP`
by `2^(WORD_BITS−1)`. -/
def Config.legal (c : Config) : Bool :=
  (match c.wordBits with
    | none => true
    | some n => decide (8 ≤ n) &&
        (match c.memCap with
          | none => false
          | some cap => decide (cap ≤ 2 ^ (n - 1)))) &&
  (match c.memCap with | none => true | some cap => decide (1 ≤ cap)) &&
  (match c.iqCap with | none => true | some cap => decide (1 ≤ cap)) &&
  (match c.oqCap with | none => true | some cap => decide (1 ≤ cap))

end Sys2Proof
end

