-- ==== Sys2Proof/Machine/State.lean ====
section
/-! DEFINITION. The state of one core (10_state.md R20), plain data, and the state right after reset. -/

namespace Sys2Proof.Machine

/-- The run state machine's register (10_state.md R31). -/
inductive Status where
  /-- Constructed or reset, not yet run since. -/
  | ready
  /-- Inside a run. -/
  | running
  /-- The last run returned blocked on input. -/
  | blocked
  /-- The halt instruction executed. -/
  | halted
  /-- The last run returned with a fault. -/
  | faulted
deriving DecidableEq, Repr

/-- The cause of a fault record (10_state.md R32, 60_exceptions.md R201); their numbers are `causeCode`. -/
inductive Cause where
  | noFault
  | invalidOpcode
  | endOfProgram
  | invalidMode
  | immediateWrite
  | negativeAddress
  | memoryCapacity
  | negativeJumpTarget
  | wordOverflow
  | outputQueueFull
deriving DecidableEq, Repr

/-- The fault record (10_state.md R32). -/
structure FaultRecord where
  cause : Cause
  /-- The PC of the instruction that faulted. -/
  pc : Nat
  /-- True when the instruction word was fetched. -/
  wordValid : Bool
  /-- The instruction word at `pc`; 0 when `wordValid` is false. -/
  word : Word
  /-- The parameter the fault concerns; 0 when none. -/
  param : Fin 4
  /-- The address, target, digit or exact result the fault concerns; 0 when none. An exact integer, which may lie outside
  the words of the configured width. -/
  value : Int
deriving DecidableEq, Repr

/-- The empty record: all fields 0, `word_valid` false (10_state.md R36). -/
def FaultRecord.empty : FaultRecord :=
  { cause := .noFault, pc := 0, wordValid := false, word := 0, param := 0, value := 0 }

/-- Why a run returned (60_exceptions.md R202). -/
inductive StopReason where
  | halted
  | blocked
  | faulted (record : FaultRecord)
deriving DecidableEq, Repr

/-- The host's commands (60_exceptions.md R210). -/
inductive Command where
  | construct (program : List Word)
  | addInput (v : Int)
  | popOutput
  | isHalted
  | run
  | reset
  | peekMemory (i : Int)
  | writeMemory (i v : Int)
  | readStatus
deriving DecidableEq, Repr

/-- The results of the host's commands (60_exceptions.md R210). -/
inductive Reply where
  /-- construct, add_input, reset and write_memory, when accepted. -/
  | ok
  /-- A refused command: it changed no state. -/
  | refused
  /-- pop_output: an explicit optional, so that a popped 0 is never confused with "none" (R214). -/
  | popped (v : Option Word)
  /-- is_halted. -/
  | halted (b : Bool)
  /-- run, when it returns. -/
  | stopped (why : StopReason)
  /-- peek_memory. -/
  | word (v : Word)
  /-- read_status. -/
  | status (st : Status) (record : FaultRecord)
deriving DecidableEq, Repr

/-- The MODEL's own record of the host (entry 6): the commands it will issue and the replies it has had, both oldest
first. No instruction reads or writes it. -/
structure HostPort where
  pending : List Command
  replies : List Reply
deriving DecidableEq, Repr

/-- Memory cells as (address, word) pairs in one canonical form: addresses strictly rising, no cell whose word is 0. An
unlisted address reads 0 (10_state.md R22; entry 3). -/
abbrev Memory := List (Nat × Word)

/-- The state of one core (10_state.md R20) with its configuration and the host's port. -/
structure State where
  /-- The parameters of 00_scope.md R7; no step writes them (entry 1). -/
  config : Config
  /-- `mem` (10_state.md R22). -/
  mem : Memory
  /-- `L`, the memory length (10_state.md R23). -/
  memLen : Nat
  /-- `PC` (10_state.md R24). -/
  pc : Nat
  /-- `RB` (10_state.md R27). -/
  rb : Word
  /-- `IQ`, front first (10_state.md R28). -/
  iq : List Word
  /-- `OQ`, front first (10_state.md R29). -/
  oq : List Word
  /-- `halted` (10_state.md R30). -/
  halted : Bool
  /-- `status` (10_state.md R31). -/
  status : Status
  /-- `fault` (10_state.md R32). -/
  fault : FaultRecord
  /-- The MODEL's own host port (entry 6). -/
  port : HostPort
deriving DecidableEq, Repr

/-- The core right after construct of the empty program (10_state.md R36; DESIGN CHOICE, entry 4), with the unbounded
configuration (DESIGN CHOICE, entry 1) and an idle port. -/
def State.reset : State :=
  { config := Config.unbounded, mem := [], memLen := 0, pc := 0, rb := 0, iq := [], oq := [], halted := false,
    status := .ready, fault := FaultRecord.empty, port := { pending := [], replies := [] } }

/-- A step that stops the machine for good. The type has no constructor: every fault of this hardware has an entry the
spec describes (60_exceptions.md R204), which is taken as a next state with `status = FAULTED`, and the host can always go
on (R206). Nobody raises one (safe; entry 9). -/
inductive Fault where
deriving DecidableEq, Repr

/-- A step the model has no meaning for. -/
inductive Refusal where
  /-- Raised by an arm of `exec` for an instruction without a meaning; no arm does so now (safe). -/
  | notModelled (mnemonic : String)
deriving DecidableEq, Repr

end Sys2Proof.Machine
end

