-- ==== Sys2Proof/Machine/Ops.lean ====
section
/-! DEFINITION. The shared operations: memory cells, the word and address checks, the commit of an instruction's staged
effects, fault entry, the two other ends of a run, and the return from all three (a new run). -/

namespace Sys2Proof.Machine

/-! ## Words and addresses -/

/-- `InWord(v)` (00_scope.md R8). -/
def inWord (c : Config) (v : Int) : Bool :=
  match c.wordBits with
  | none => true
  | some n => decide (-((2 ^ (n - 1) : Nat) : Int) ≤ v ∧ v ≤ ((2 ^ (n - 1) : Nat) : Int) - 1)

/-- Is the address at or beyond `MEM_CAP`? Never when `MEM_CAP` is ∞ (20_memory.md R55). -/
def beyondCap (c : Config) (a : Int) : Bool :=
  match c.memCap with
  | none => false
  | some cap => decide ((cap : Int) ≤ a)

/-- Does a queue of `len` words hold as many as its capacity allows? Never when the capacity is ∞
(60_exceptions.md R213, 41_io.md R121). -/
def queueFull (cap : Option Nat) (len : Nat) : Bool :=
  match cap with
  | none => false
  | some n => decide (len = n)

/-! ## Memory cells -/

/-- `mem[a]` (10_state.md R22): an unlisted address reads 0. -/
def Memory.read : Memory → Nat → Word
  | [], _ => 0
  | (b, v) :: rest, a => if a = b then v else Memory.read rest a

/-- `mem[a] <- v`, keeping the canonical form: writing 0 removes the cell. -/
def Memory.write : Memory → Nat → Word → Memory
  | [], a, v => if v = 0 then [] else [(a, v)]
  | (b, w) :: rest, a, v =>
    if a < b then (if v = 0 then (b, w) :: rest else (a, v) :: (b, w) :: rest)
    else if a = b then (if v = 0 then rest else (a, v) :: rest)
    else (b, w) :: Memory.write rest a v

/-- The words of a program laid out from address `base` up (10_state.md R36). -/
def Memory.ofProgram : Nat → List Word → Memory
  | _, [] => []
  | base, v :: rest =>
    if v = 0 then Memory.ofProgram (base + 1) rest else (base, v) :: Memory.ofProgram (base + 1) rest

/-- The canonical form: addresses strictly rising, no cell holds what an unlisted address reads as. -/
abbrev Memory.wf (m : Memory) : Prop :=
  m.Pairwise (fun x y => x.1 < y.1) ∧ ∀ c ∈ m, c.2 ≠ 0

/-- `max(L, 1 + max(touched))`, and `L` itself when nothing was touched (20_memory.md R54). -/
def growTo (len : Nat) : List Nat → Nat
  | [] => len
  | a :: rest => growTo (max len (a + 1)) rest

/-! ## Faults -/

/-- The instruction word at PC. -/
def currentWord (s : State) : Word := s.mem.read s.pc

/-- A fault record of an instruction whose word was fetched (60_exceptions.md R201). -/
def faultFetched (s : State) (cause : Cause) (param : Fin 4) (value : Int) : FaultRecord :=
  { cause := cause, pc := s.pc, wordValid := true, word := currentWord s, param := param, value := value }

/-- A fault record of the fetch itself: `word_valid` false, `word` and `param` 0 (60_exceptions.md R201). -/
def faultUnfetched (s : State) (cause : Cause) (value : Int) : FaultRecord :=
  { cause := cause, pc := s.pc, wordValid := false, word := 0, param := 0, value := value }

/-- The record of an address fault at parameter `k`; `k` is 0 while the instruction word is fetched, and the record takes
the word only when it has been fetched (20_memory.md R55). -/
def addressFault (s : State) (cause : Cause) (k : Fin 4) (a : Int) : FaultRecord :=
  if k = 0 then faultUnfetched s cause a else faultFetched s cause k a

/-- `check_address(a)` (20_memory.md R55): the address, or the fault it raises. -/
def checkAddress (k : Fin 4) (a : Int) (s : State) : Except FaultRecord Nat :=
  if a < 0 then .error (addressFault s .negativeAddress k a)
  else if beyondCap s.config a then .error (addressFault s .memoryCapacity k a)
  else .ok a.toNat

/-- `if not InWord(r): raise WordOverflow(pc=PC, word=w, value=r)` (40_arithmetic.md R112). -/
def checkWord (r : Int) (s : State) : Except FaultRecord Word :=
  if inWord s.config r then .ok r else .error (faultFetched s .wordOverflow 0 r)

/-- FAULT ENTRY (60_exceptions.md R204): the record is written, `status` becomes FAULTED, nothing else changes; PC still
addresses the faulting instruction. There is no handler and no vector (R200). -/
def takeFault (f : FaultRecord) (s : State) : State := { s with fault := f, status := .faulted }

/-- Outcome BLOCK (41_io.md R120, 60_exceptions.md R216): only `status` changes. -/
def takeBlock (s : State) : State := { s with status := .blocked }

/-- Outcome HALT (45_halt.md R160): PC keeps the halt's address. -/
def takeHalt (s : State) : State := { s with halted := true, status := .halted }

/-- THE RETURN from a fault, a block or READY: a new run clears the record and fetches again at PC
(60_exceptions.md R206, R216). -/
def enterRun (s : State) : State := { s with fault := FaultRecord.empty, status := .running }

/-! ## Staged effects and their commit -/

/-- What an instruction stages until its commit (30_encoding.md R94). -/
structure Effects where
  /-- The touched set: every address read or written. -/
  touched : List Nat
  /-- At most one memory write. -/
  write : Option (Nat × Word)
  /-- The new PC. -/
  pc : Nat
  /-- The new relative base. -/
  rb : Word
  /-- Is the front of IQ removed? -/
  dequeue : Bool
  /-- The word appended to OQ, if any. -/
  enqueue : Option Word
deriving DecidableEq, Repr

/-- The default effects of an instruction with `n` parameters: only PC advances, to `PC + 1 + n`
(30_encoding.md R94, R95). The instruction word at PC has been touched by the fetch (R91). -/
def advance (n : Nat) (touched : List Nat) (s : State) : Effects :=
  { touched := s.pc :: touched, write := none, pc := s.pc + 1 + n, rb := s.rb, dequeue := false, enqueue := none }

/-- `commit()` (30_encoding.md R95): all staged effects together. -/
def commit (e : Effects) (s : State) : State :=
  { s with
    memLen := growTo s.memLen e.touched
    mem := match e.write with
      | none => s.mem
      | some (a, v) => s.mem.write a v
    pc := e.pc
    rb := e.rb
    iq := if e.dequeue then s.iq.tail else s.iq
    oq := match e.enqueue with
      | none => s.oq
      | some v => s.oq ++ [v] }

/-- Go on with `k` after a stage that may raise a fault; a `raise` ends the step at once and discards everything staged
(30_encoding.md R93). -/
def orFault {α : Type} (r : Except FaultRecord α) (s : State) (k : α → Host.Outcome State Fault Refusal) :
    Host.Outcome State Fault Refusal :=
  match r with
  | .error f => .next (takeFault f s)
  | .ok a => k a

end Sys2Proof.Machine
end

