-- ==== Sys2Proof/Machine/Operands.lean ====
section
/-! DEFINITION. The address-mode calculation unit (30_encoding.md R77 to R79): a parameter word and its mode become an
operand value or a write address. -/

namespace Sys2Proof.Machine

/-- The parameter word at `PC + k` (30_encoding.md R70). -/
def paramWord (k : Fin 4) (s : State) : Word := s.mem.read (s.pc + k)

/-- The effective address of a parameter word: itself in position mode, `RB + p` in relative mode, none in immediate mode
(30_encoding.md R77, R78). The sum is exact. -/
def effectiveAddress (m : Mode) (p : Word) (s : State) : Option Int :=
  match m with
  | .position => some p
  | .immediate => none
  | .relative => some (s.rb + p)

/-- A resolved read operand: its value and the addresses it touched. -/
structure Operand where
  value : Word
  touched : List Nat
deriving DecidableEq, Repr

/-- A resolved write target: its address and the addresses it touched, the target itself included (20_memory.md R53). -/
structure Target where
  addr : Nat
  touched : List Nat
deriving DecidableEq, Repr

/-- Parameter `k` as a read operand: its word is read, then `read_value(p, m)` (30_encoding.md R77, R93). A read at or
beyond L gives 0 (20_memory.md R52). -/
def readOperand (k : Fin 4) (m : Mode) (s : State) : Except FaultRecord Operand :=
  match checkAddress k (s.pc + k : Nat) s with
  | .error f => .error f
  | .ok pa =>
    match effectiveAddress m (s.mem.read pa) s with
    | none => .ok { value := s.mem.read pa, touched := [pa] }
    | some ea =>
      match checkAddress k ea s with
      | .error f => .error f
      | .ok a => .ok { value := s.mem.read a, touched := [pa, a] }

/-- Parameter `k` as a write target: its word is read, then `write_address(p, m)`, which never reads the cell the address
names (30_encoding.md R78, R93). An immediate target has been refused by the decoder; given one all the same, it is the
ImmediateWrite fault (R76; DESIGN CHOICE, entry 12). -/
def writeTarget (k : Fin 4) (m : Mode) (s : State) : Except FaultRecord Target :=
  match checkAddress k (s.pc + k : Nat) s with
  | .error f => .error f
  | .ok pa =>
    match effectiveAddress m (s.mem.read pa) s with
    | none => .error (faultFetched s .immediateWrite k 0)
    | some ea =>
      match checkAddress k ea s with
      | .error f => .error f
      | .ok a => .ok { addr := a, touched := [pa, a] }

/-- Resolve read operand `k`, then go on. -/
def withRead (k : Fin 4) (m : Mode) (s : State) (next : Operand → Host.Outcome State Fault Refusal) :
    Host.Outcome State Fault Refusal :=
  orFault (readOperand k m s) s next

/-- Resolve write target `k`, then go on. -/
def withTarget (k : Fin 4) (m : Mode) (s : State) (next : Target → Host.Outcome State Fault Refusal) :
    Host.Outcome State Fault Refusal :=
  orFault (writeTarget k m s) s next

/-- The shape of add, mul, less-than and equals: a, b and dst are resolved in that order, `f` gives the word to write or
the fault it raises, and the word is written to dst; PC + 4 (30_encoding.md R93 to R95). All reads precede the write
(20_memory.md R62). -/
def storeBinary (f : Word → Word → Except FaultRecord Word) (m1 m2 m3 : Mode) (s : State) :
    Host.Outcome State Fault Refusal :=
  withRead 1 m1 s fun a =>
  withRead 2 m2 s fun b =>
  withTarget 3 m3 s fun d =>
  orFault (f a.value b.value) s fun r =>
  .next (commit { advance 3 (a.touched ++ b.touched ++ d.touched) s with write := some (d.addr, r) } s)

/-- The shape of the two conditional jumps: a and target are resolved in that order; when `taken` holds of a the target
becomes PC, or NegativeJumpTarget is raised when it is negative; else PC + 3. A target that is not taken is never checked
(42_jumps.md R130, R131, R133). -/
def jumpWhen (taken : Word → Bool) (m1 m2 : Mode) (s : State) : Host.Outcome State Fault Refusal :=
  withRead 1 m1 s fun a =>
  withRead 2 m2 s fun t =>
  if taken a.value then
    if t.value < 0 then .next (takeFault (faultFetched s .negativeJumpTarget 2 t.value) s)
    else .next (commit { advance 2 (a.touched ++ t.touched) s with pc := t.value.toNat } s)
  else .next (commit (advance 2 (a.touched ++ t.touched) s) s)

end Sys2Proof.Machine
end

