-- ==== Sys2Proof/Machine/Flags.lean ====
section
/-! DEFINITION. The core has no condition codes (10_state.md R34). This file holds what stands in their place: the words a
comparison writes, the test a conditional jump makes, and the numbers of the status and cause registers. -/

namespace Sys2Proof.Machine

/-- The comparison results: exactly the words 1 (true) and 0 (false) (43_compare.md R142). -/
def truthWord (b : Bool) : Word := if b then 1 else 0

/-- What jump-if-true tests: any non-zero value, negative included, is true (42_jumps.md R130). -/
def wordIsTrue (v : Word) : Bool := decide (v ≠ 0)

/-- The 3-bit encoding of `status` (10_state.md R31). -/
def statusCode : Status → BitVec 3
  | .ready => 0
  | .running => 1
  | .blocked => 2
  | .halted => 3
  | .faulted => 4

/-- The cause codes (60_exceptions.md R201); 0 means no fault (10_state.md R32). -/
def causeCode : Cause → Nat
  | .noFault => 0
  | .invalidOpcode => 1
  | .endOfProgram => 2
  | .invalidMode => 3
  | .immediateWrite => 4
  | .negativeAddress => 5
  | .memoryCapacity => 6
  | .negativeJumpTarget => 7
  | .wordOverflow => 8
  | .outputQueueFull => 9

end Sys2Proof.Machine
end

