-- ==== Sys2Proof/Machine/Arithmetic.lean ====
section
/-! DEFINITION. add and mul (40_arithmetic.md). -/

namespace Sys2Proof.Machine

/-- add: `mem[dst] = val(a)+val(b)`, PC + 4; WordOverflow when the exact sum is no word (40_arithmetic.md R110). -/
def execAdd (m1 m2 m3 : Mode) (s : State) : Host.Outcome State Fault Refusal :=
  storeBinary (fun a b => checkWord (a + b) s) m1 m2 m3 s

/-- mul: `mem[dst] = val(a)*val(b)`, PC + 4; WordOverflow when the exact product is no word (40_arithmetic.md R111). -/
def execMul (m1 m2 m3 : Mode) (s : State) : Host.Outcome State Fault Refusal :=
  storeBinary (fun a b => checkWord (a * b) s) m1 m2 m3 s

end Sys2Proof.Machine
end

