-- ==== Sys2Proof/Machine/Base.lean ====
section
/-! DEFINITION. adjust-base (44_base.md). -/

namespace Sys2Proof.Machine

/-- adjust-base: `RelativeBase += val(a)`, PC + 2; a is resolved with the old base; WordOverflow when the exact new base
is no word (44_base.md R150). -/
def execAdjustBase (m1 : Mode) (s : State) : Host.Outcome State Fault Refusal :=
  withRead 1 m1 s fun a =>
  orFault (checkWord (s.rb + a.value) s) s fun r =>
  .next (commit { advance 1 a.touched s with rb := r } s)

end Sys2Proof.Machine
end

