-- ==== Sys2Proof/Machine/Compare.lean ====
section
/-! DEFINITION. less-than and equals (43_compare.md). Their results, 1 and 0, are words for every legal `WORD_BITS`, so
they raise no WordOverflow (R142). -/

namespace Sys2Proof.Machine

/-- less-than: `mem[dst] = 1 if val(a)<val(b) else 0`, signed, PC + 4 (43_compare.md R140). -/
def execLessThan (m1 m2 m3 : Mode) (s : State) : Host.Outcome State Fault Refusal :=
  storeBinary (fun a b => .ok (truthWord (decide (a < b)))) m1 m2 m3 s

/-- equals: `mem[dst] = 1 if val(a)=val(b) else 0`, PC + 4 (43_compare.md R141). -/
def execEquals (m1 m2 m3 : Mode) (s : State) : Host.Outcome State Fault Refusal :=
  storeBinary (fun a b => .ok (truthWord (decide (a = b)))) m1 m2 m3 s

end Sys2Proof.Machine
end

