-- ==== Sys2Proof/Machine/Halt.lean ====
section
/-! DEFINITION. halt (45_halt.md). -/

namespace Sys2Proof.Machine

/-- halt: `halted=true, stop`; PC unchanged, nothing else written (45_halt.md R160). -/
def execHalt (s : State) : Host.Outcome State Fault Refusal :=
  .next (takeHalt s)

end Sys2Proof.Machine
end

