-- ==== Sys2Proof/Machine/InputOutput.lean ====
section
/-! DEFINITION. input and output (41_io.md). -/

namespace Sys2Proof.Machine

/-- input: `mem[dst] = dequeue(Input)`, PC + 2; with IQ empty the run blocks before any parameter word is read
(41_io.md R120, 30_encoding.md R93). -/
def execInput (m1 : Mode) (s : State) : Host.Outcome State Fault Refusal :=
  match s.iq with
  | [] => .next (takeBlock s)
  | x :: _ =>
    withTarget 1 m1 s fun d =>
    .next (commit { advance 1 d.touched s with write := some (d.addr, x), dequeue := true } s)

/-- output: `enqueue(Output, val(a))`, PC + 2; OutputQueueFull when OQ is bounded and full (41_io.md R121). -/
def execOutput (m1 : Mode) (s : State) : Host.Outcome State Fault Refusal :=
  withRead 1 m1 s fun a =>
  if queueFull s.config.oqCap s.oq.length then .next (takeFault (faultFetched s .outputQueueFull 0 0) s)
  else .next (commit { advance 1 a.touched s with enqueue := some a.value } s)

end Sys2Proof.Machine
end

