-- ==== Sys2Proof/Machine/Jumps.lean ====
section
/-! DEFINITION. The conditional jumps (42_jumps.md). -/

namespace Sys2Proof.Machine

/-- jump-if-true: `if val(a)≠0: PC=val(target), else PC+=3` (42_jumps.md R130, R133). -/
def execJumpIfTrue (m1 m2 : Mode) (s : State) : Host.Outcome State Fault Refusal :=
  jumpWhen (fun a => wordIsTrue a) m1 m2 s

/-- jump-if-false: `if val(a)=0: PC=val(target), else PC+=3` (42_jumps.md R131, R133). -/
def execJumpIfFalse (m1 m2 : Mode) (s : State) : Host.Outcome State Fault Refusal :=
  jumpWhen (fun a => !wordIsTrue a) m1 m2 s

end Sys2Proof.Machine
end

