-- ==== Sys2Proof/Machine/HostCommands.lean ====
section
/-! DEFINITION. The host's commands (60_exceptions.md R210 to R221, 20_memory.md R67, R68, 70_reset_and_hazards.md R250 to
R253), each one indivisible transition. Every command is performed only when `status ≠ RUNNING` (R211): `step` sees to
that. -/

namespace Sys2Proof.Machine

/-- Do `len` words fit in the memory? (70_reset_and_hazards.md R250) -/
def fitsMemory (c : Config) (len : Nat) : Bool :=
  match c.memCap with
  | none => true
  | some cap => decide (len ≤ cap)

/-- construct(program) (70_reset_and_hazards.md R250, 10_state.md R36): a new core, or none when it is refused because
some word is no word of the configured width or the program is longer than `MEM_CAP`. -/
def construct (c : Config) (program : List Word) : Option State :=
  if program.all (fun v => inWord c v) && fitsMemory c program.length then
    some { State.reset with config := c, mem := Memory.ofProgram 0 program, memLen := program.length }
  else none

/-- add_input(v) (60_exceptions.md R213); none is a refusal. -/
def addInput (v : Int) (s : State) : Option State :=
  if !inWord s.config v || queueFull s.config.iqCap s.iq.length then none
  else some { s with iq := s.iq ++ [v] }

/-- pop_output() (60_exceptions.md R214): the front of OQ, if any, and the state without it. -/
def popOutput (s : State) : Option Word × State := (s.oq.head?, { s with oq := s.oq.tail })

/-- reset() (70_reset_and_hazards.md R251, 10_state.md R37): mem, L, RB and OQ stay (the documented quirk, R252). -/
def hostReset (s : State) : State :=
  { s with pc := 0, iq := [], halted := false, status := .ready, fault := FaultRecord.empty }

/-- May the host reach index `i`? (20_memory.md R67, R68.) -/
def hostIndexOk (s : State) (i : Int) : Bool := !decide (i < 0) && !beyondCap s.config i

/-- peek_memory(i) (20_memory.md R67): the word and the state with L grown to cover `i`; none is a refusal. -/
def peekMemory (i : Int) (s : State) : Option (Word × State) :=
  if hostIndexOk s i then some (s.mem.read i.toNat, { s with memLen := max s.memLen (i.toNat + 1) }) else none

/-- write_memory(i, v) (20_memory.md R68); none is a refusal. -/
def writeMemory (i v : Int) (s : State) : Option State :=
  if hostIndexOk s i && inWord s.config v then
    some { s with memLen := max s.memLen (i.toNat + 1), mem := s.mem.write i.toNat v }
  else none

/-- What a run that has returned reports, read from the core (60_exceptions.md R202, R216). -/
def stopReason (s : State) : Option StopReason :=
  match s.status with
  | .ready => none
  | .running => none
  | .blocked => some .blocked
  | .halted => some .halted
  | .faulted => some (.faulted s.fault)

/-- An accepted or refused command that returns no value. -/
def acknowledge (s : State) : Option State → State × Option Reply
  | some t => (t, some .ok)
  | none => (s, some .refused)

/-- One host command on a core that is not RUNNING: the new state and the reply. run() on a core that is not HALTED has
its reply when the run returns (60_exceptions.md R216); on a HALTED core it returns HALTED at once (R218). construct
through the port starts a new core on the same hardware (entry 8). -/
def hostCommand (c : Command) (s : State) : State × Option Reply :=
  match c with
  | .construct program => acknowledge s (construct s.config program)
  | .addInput v => acknowledge s (addInput v s)
  | .popOutput => ((popOutput s).2, some (.popped (popOutput s).1))
  | .isHalted => (s, some (.halted s.halted))
  | .run => if s.status = .halted then (s, some (.stopped .halted)) else (enterRun s, none)
  | .reset => (hostReset s, some .ok)
  | .peekMemory i =>
    match peekMemory i s with
    | some (v, t) => (t, some (.word v))
    | none => (s, some .refused)
  | .writeMemory i v => acknowledge s (writeMemory i v s)
  | .readStatus => (s, some (.status s.status s.fault))

/-- The step of a core that is not RUNNING: the host's oldest pending command is performed and its reply recorded; with no
command pending the core waits, keeping all its state (60_exceptions.md R210, R211, R233; entry 6). -/
def hostStep (s : State) : State :=
  match s.port.pending with
  | [] => s
  | c :: rest =>
    { (hostCommand c s).1 with
      port := { pending := rest, replies := s.port.replies ++ (hostCommand c s).2.toList } }

/-- The end of a run: when an instruction has left the core HALTED, BLOCKED or FAULTED, the run returns and its stop
reason is the reply of the run command (60_exceptions.md R202, R216; entry 7). A core that is still RUNNING gets no
reply. -/
def returnFromRun (s : State) : State :=
  { s with port := { s.port with replies := s.port.replies ++ (stopReason s).toList.map Reply.stopped } }

end Sys2Proof.Machine
end

