-- ==== Sys2Proof/Machine/Cycle.lean ====
section
/-! DEFINITION. The instruction cycle (30_encoding.md R90 to R93): fetch, decode, dispatch. -/

namespace Sys2Proof.Machine

/-- The fetch stage (30_encoding.md R91): EndOfProgram at exactly `PC = L` under TRAP, tested before the address check;
else the word at PC, which is 0 at or beyond L. -/
def fetch (s : State) : Except FaultRecord Word :=
  if s.config.endPolicy = .trap ∧ s.pc = s.memLen then .error (faultUnfetched s .endOfProgram 0)
  else
    match checkAddress 0 s.pc s with
    | .error f => .error f
    | .ok a => .ok (s.mem.read a)

/-- The record of a decode fault (30_encoding.md R92, 60_exceptions.md R201). -/
def decodeFault (s : State) : DecodeError → FaultRecord
  | .invalidOpcode => faultFetched s .invalidOpcode 0 0
  | .invalidMode k d => faultFetched s .invalidMode k d
  | .immediateWrite k => faultFetched s .immediateWrite k 0

/-- One step of a RUNNING core (30_encoding.md R93). Decode reads no parameter word and stages nothing (R92). -/
def instructionStep (s : State) : Host.Outcome State Fault Refusal :=
  match fetch s with
  | .error f => .next (takeFault f s)
  | .ok w =>
    match decode w with
    | .error e => .next (takeFault (decodeFault s e) s)
    | .ok i => exec i s

/-- Let the run return when the instruction ended it. -/
def endingRun : Host.Outcome State Fault Refusal → Host.Outcome State Fault Refusal
  | .next t => .next (returnFromRun t)
  | .fault f => .fault f
  | .refused r => .refused r

/-- One transition of the machine: an instruction while a run is in progress, a host command otherwise
(60_exceptions.md R211, R217; 70_reset_and_hazards.md R259). -/
def cycle (s : State) : Host.Outcome State Fault Refusal :=
  match s.status with
  | .running => endingRun (instructionStep s)
  | .ready => .next (hostStep s)
  | .blocked => .next (hostStep s)
  | .halted => .next (hostStep s)
  | .faulted => .next (hostStep s)

/-- An instruction word with three parameter words of 0 after it, stored at PC, and a run in progress there (entry 5). -/
def placeInstruction (w : Word) (s : State) : State :=
  { enterRun s with
    mem := (((s.mem.write s.pc w).write (s.pc + 1) 0).write (s.pc + 2) 0).write (s.pc + 3) 0
    memLen := max s.memLen (s.pc + 4)
    halted := false }

end Sys2Proof.Machine
end

