-- ==== Sys2Proof/Machine/Step.lean ====
section
/-! DEFINITION. The step of the machine, and how the host of this package places an instruction under it. -/

namespace Sys2Proof.Machine

/-- One indivisible transition (70_reset_and_hazards.md R259): one instruction of a RUNNING core, or one host command. -/
def step (s : State) : Host.Outcome State Fault Refusal := cycle s

/-- `s` with the instruction word `w` at PC, parameter words of 0 after it, L covering them, and a run in progress: what
construct and run do for a program that begins so (entry 5). Bits are numbered as in `decodeTableWord` (entry 11). -/
def State.withFetchWord (s : State) (_nbits w : Nat) : State := placeInstruction (w : Int) s

end Sys2Proof.Machine
end

