-- ==== Sys2Proof/Safety.lean ====
section
/-! DEFINITION. The terms claims are stated in: what the operands of the instruction at PC are and which address fault they
meet first, written straight from 30_encoding.md R77, R78 and 20_memory.md R55; when a fetch succeeds; and the invariant of
the core. -/

namespace Sys2Proof.Machine

/-! ## The fetch -/

/-- Is PC inside the memory? (20_memory.md R51) -/
def pcInMemory (s : State) : Bool :=
  match s.config.memCap with
  | none => true
  | some cap => decide (s.pc < cap)

/-- Is the fetch at the end of the program, under `END_POLICY = TRAP`? (30_encoding.md R91) -/
def atEndOfProgram (s : State) : Bool := decide (s.config.endPolicy = .trap ∧ s.pc = s.memLen)

/-- The word at PC is fetched without a fault (30_encoding.md R91). -/
def fetchable (s : State) : Bool := !atEndOfProgram s && pcInMemory s

/-! ## Operands of the instruction at PC -/

/-- A fault record of the instruction at PC, its word having been fetched (60_exceptions.md R201). -/
def recordAt (s : State) (cause : Cause) (param : Fin 4) (value : Int) : FaultRecord :=
  { cause := cause, pc := s.pc, wordValid := true, word := s.mem.read s.pc, param := param, value := value }

/-- The fault `check_address(a)` raises for parameter `k`, if any (20_memory.md R55). -/
def addressProblem (k : Fin 4) (a : Int) (s : State) : Option FaultRecord :=
  if a < 0 then some (recordAt s .negativeAddress k a)
  else
    match s.config.memCap with
    | none => none
    | some cap => if (cap : Int) ≤ a then some (recordAt s .memoryCapacity k a) else none

/-- The address that parameter `k` in mode `m` stands for: the parameter word, or RB plus it; an immediate has none
(30_encoding.md R77, R78). -/
def operandAddress (k : Fin 4) (m : Mode) (s : State) : Option Int :=
  match m with
  | .position => some (s.mem.read (s.pc + k))
  | .immediate => none
  | .relative => some (s.rb + s.mem.read (s.pc + k))

/-- The fault parameter `k` in mode `m` meets first: on its parameter word, then on its effective address
(60_exceptions.md R203). -/
def operandProblem (k : Fin 4) (m : Mode) (s : State) : Option FaultRecord :=
  (addressProblem k (s.pc + k : Nat) s).or
    (match operandAddress k m s with
      | none => none
      | some a => addressProblem k a s)

/-- The first fault of parameters 1 and 2, in parameter order (60_exceptions.md R203). -/
def problem2 (m1 m2 : Mode) (s : State) : Option FaultRecord :=
  (operandProblem 1 m1 s).or (operandProblem 2 m2 s)

/-- The first fault of parameters 1, 2 and 3, in parameter order (60_exceptions.md R203). -/
def problem3 (m1 m2 m3 : Mode) (s : State) : Option FaultRecord :=
  (problem2 m1 m2 s).or (operandProblem 3 m3 s)

/-- `val` of read operand `k` (30_encoding.md R77). -/
def operandValue (k : Fin 4) (m : Mode) (s : State) : Word :=
  match operandAddress k m s with
  | none => s.mem.read (s.pc + k)
  | some a => s.mem.read a.toNat

/-- The write address of write target `k` (30_encoding.md R78). An immediate has none; it is 0 there, and every statement
rules that mode out. -/
def targetAddress (k : Fin 4) (m : Mode) (s : State) : Nat :=
  match operandAddress k m s with
  | none => 0
  | some a => a.toNat

/-- The addresses parameter `k` in mode `m` touches: its parameter word and its effective address
(20_memory.md R52, R53). -/
def operandTouched (k : Fin 4) (m : Mode) (s : State) : List Nat :=
  match operandAddress k m s with
  | none => [s.pc + k]
  | some a => [s.pc + k, a.toNat]

/-- Everything a one-parameter instruction touches, its own word first. -/
def touched1 (m1 : Mode) (s : State) : List Nat := s.pc :: operandTouched 1 m1 s

/-- Everything a two-parameter instruction touches. -/
def touched2 (m1 m2 : Mode) (s : State) : List Nat := touched1 m1 s ++ operandTouched 2 m2 s

/-- Everything a three-parameter instruction touches. -/
def touched3 (m1 m2 m3 : Mode) (s : State) : List Nat := touched2 m1 m2 s ++ operandTouched 3 m3 s

/-- Does the instruction store to memory? (30_encoding.md R73: a write target.) -/
def stores : Instr → Bool
  | .add _ _ _ => true
  | .mul _ _ _ => true
  | .input _ => true
  | .output _ => false
  | .jumpIfTrue _ _ => false
  | .jumpIfFalse _ _ => false
  | .lessThan _ _ _ => true
  | .equals _ _ _ => true
  | .adjustBase _ => false
  | .halt => false

/-- The address an instruction stores to, the one its write target resolves to; none when it stores nothing
(30_encoding.md R73, R78). -/
def storeAddress (i : Instr) (s : State) : Option Nat :=
  match i with
  | .add _ _ m3 => some (targetAddress 3 m3 s)
  | .mul _ _ m3 => some (targetAddress 3 m3 s)
  | .input m1 => some (targetAddress 1 m1 s)
  | .output _ => none
  | .jumpIfTrue _ _ => none
  | .jumpIfFalse _ _ => none
  | .lessThan _ _ m3 => some (targetAddress 3 m3 s)
  | .equals _ _ m3 => some (targetAddress 3 m3 s)
  | .adjustBase _ => none
  | .halt => none

/-- The mode of parameter `k` of an instruction; none when it has no such parameter (30_encoding.md R71, R73). -/
def paramMode (i : Instr) (k : Fin 4) : Option Mode :=
  match k.val with
  | 0 => none
  | n + 1 => (modesOf i)[n]?

/-- `r` is the exact sum, product or new base that add, mul or adjust-base computes
(40_arithmetic.md R110, R111; 44_base.md R150). -/
def exactResult (i : Instr) (s : State) (r : Int) : Prop :=
  (∃ m1 m2 m3, i = .add m1 m2 m3 ∧ r = operandValue 1 m1 s + operandValue 2 m2 s) ∨
  (∃ m1 m2 m3, i = .mul m1 m2 m3 ∧ r = operandValue 1 m1 s * operandValue 2 m2 s) ∨
  ∃ m1, i = .adjustBase m1 ∧ r = s.rb + operandValue 1 m1 s

/-- The instruction the core executes next: a run is in progress, the fetch succeeds and the word decodes to `i`. -/
def executes (s : State) (i : Instr) : Prop :=
  s.status = .running ∧ fetchable s = true ∧ decode (s.mem.read s.pc) = .ok i

/-- The host's command that the core performs next: no run is in progress and `c` is the oldest pending. -/
def commanded (s : State) (c : Command) : Prop := s.status ≠ .running ∧ s.port.pending.head? = some c

/-! ## The invariant -/

/-- Does a queue of `len` words fit its capacity? (00_scope.md R7) -/
def queueFits (cap : Option Nat) (len : Nat) : Bool :=
  match cap with
  | none => true
  | some n => decide (len ≤ n)

/-- What holds of every core at every moment. -/
structure Inv (s : State) : Prop where
  /-- The parameters are legal (00_scope.md R7). -/
  configLegal : s.config.legal = true
  /-- Memory keeps its canonical form. -/
  memCanonical : s.mem.wf
  /-- Every cell at or beyond L reads 0 (10_state.md R22). -/
  memBelowLen : ∀ c ∈ s.mem, c.1 < s.memLen
  /-- Every memory cell holds a word (00_scope.md R8). -/
  memWords : ∀ c ∈ s.mem, inWord s.config c.2 = true
  /-- L is at most `MEM_CAP` (20_memory.md R55). -/
  lenFits : fitsMemory s.config s.memLen = true
  /-- RB is a word (10_state.md R27). -/
  rbWord : inWord s.config s.rb = true
  /-- Every IQ entry is a word (10_state.md R28). -/
  iqWords : ∀ v ∈ s.iq, inWord s.config v = true
  /-- IQ holds at most `IQ_CAP` words (10_state.md R28). -/
  iqFits : queueFits s.config.iqCap s.iq.length = true
  /-- Every OQ entry is a word (10_state.md R29). -/
  oqWords : ∀ v ∈ s.oq, inWord s.config v = true
  /-- OQ holds at most `OQ_CAP` words (10_state.md R29). -/
  oqFits : queueFits s.config.oqCap s.oq.length = true
  /-- `halted = (status = HALTED)` (60_exceptions.md R222). -/
  haltedAgrees : s.halted = decide (s.status = .halted)
  /-- The fault record is empty unless the last run faulted (10_state.md R32). -/
  faultEmpty : s.status ≠ .faulted → s.fault = FaultRecord.empty
  /-- A FAULTED core holds a cause, and PC still addresses the faulting instruction (60_exceptions.md R204). -/
  faultHeld : s.status = .faulted → s.fault.cause ≠ .noFault ∧ s.fault.pc = s.pc
  /-- The recorded word is a word, and 0 when it was not fetched (10_state.md R32). -/
  faultWord : inWord s.config s.fault.word = true ∧ (s.fault.wordValid = false → s.fault.word = 0)

end Sys2Proof.Machine
end

