-- ==== Sys2Proof/Certificates/Slice0/Obligations.lean ====
section
/-! DEFINITION. The statements for the provers. Each is about every state or every word unless its docstring says
otherwise. "Completes" means that `exec` answers the next state of the instruction's own effect; fault entry and blocking are
stated beside it. Clauses that rest on a decision the spec marks as its own (D<n> of spec/92_eei_decisions.md) or on an entry
of the assumption log say so. -/

open Sys2Proof Sys2Proof.Machine

/-! ## Encoding -/

/-- Words written out from 30_encoding.md R71 to R76 decode to the instructions they stand for (95_test_vectors.md S2r, S3,
V-HALT-2, V-HALT-3, V-ADD-11; a negative word by D6). -/
def Obligations.SpecWordsDecode : Prop :=
  decode 1002 = .ok (.mul .position .immediate .position) ∧
  decode 1101 = .ok (.add .immediate .immediate .position) ∧
  decode 203 = .ok (.input .relative) ∧
  decode 104 = .ok (.output .immediate) ∧
  decode 2105 = .ok (.jumpIfTrue .immediate .relative) ∧
  decode 1006 = .ok (.jumpIfFalse .position .immediate) ∧
  decode 21107 = .ok (.lessThan .immediate .immediate .relative) ∧
  decode 8 = .ok (.equals .position .position .position) ∧
  decode 109 = .ok (.adjustBase .immediate) ∧
  decode 199 = .ok .halt ∧
  decode (-1) = .ok .halt ∧
  decode 99900001 = .ok (.add .position .position .position)

/-- Decode and encode agree on every word: `w` decodes to `i` exactly when `i` is well formed and `w` is its encoding with
any digits at all, and any sign, above the digits of its parameters (30_encoding.md R71, R75, R83; floored digits by D6). -/
def Obligations.DecodeEncodeAgree : Prop :=
  ∀ (w : Word) (i : Instr),
    decode w = .ok i ↔
      i.wellFormed = true ∧ ∃ high : Int, w = encode i + high * 10 ^ (2 + (modesOf i).length)

/-- Which words the decoder rejects, and by which name: an undefined code; or the first parameter, in parameter order, whose
consulted digit is 3 to 9, or is 1 on the write target (30_encoding.md R74, R76, R92; D4, D5, D13). -/
def Obligations.DecodeRejectsByFirstDefect : Prop :=
  ∀ (w : Word) (e : DecodeError),
    decode w = .error e ↔
      (codeDefined (instrCode w) = false ∧ e = .invalidOpcode) ∨
      (codeDefined (instrCode w) = true ∧
        ∃ k : Fin 4, 1 ≤ k.val ∧ k.val ≤ paramCount (instrCode w) ∧
          (∀ j : Fin 4, 1 ≤ j.val → j.val < k.val →
            digit w (j.val + 1) ≤ 2 ∧ ¬(j.val = writeParam (instrCode w) ∧ digit w (j.val + 1) = 1)) ∧
          ((3 ≤ digit w (k.val + 1) ∧ e = .invalidMode k (digit w (k.val + 1))) ∨
            (k.val = writeParam (instrCode w) ∧ digit w (k.val + 1) = 1 ∧ e = .immediateWrite k)))

/-- Only the mode digits of parameters 1 to n are consulted, n being the instruction's parameter count: whatever stands above
them, the word decodes the same way; so it does for a code outside the table (30_encoding.md R75; that negative words have
floored digits, so that this holds of them too, is the spec's decision D6, entry 14). -/
def Obligations.UnconsultedDigitsAreIgnored : Prop :=
  (∀ w high : Int, decode (w + high * 10 ^ (2 + paramCount (instrCode w))) = decode w) ∧
  (∀ w : Word,
    paramCount (instrCode w) =
      if instrCode w = 1 ∨ instrCode w = 2 ∨ instrCode w = 7 ∨ instrCode w = 8 then 3
      else if instrCode w = 5 ∨ instrCode w = 6 then 2
      else if instrCode w = 3 ∨ instrCode w = 4 ∨ instrCode w = 9 then 1
      else 0) ∧
  decode 99900001 = .ok (.add .position .position .position)

/-- The decoder consults nothing of a word but its code and the mode digits of parameters 1 to n: two words that agree in
these decode alike, whatever their other digits are. Said of the words that are not negative, whose digits are the decimal
digits R71 reads (30_encoding.md R75). -/
def Obligations.DecodeReadsOnlyConsultedDigits : Prop :=
  (∀ w v : Nat, instrCode w = instrCode v →
    (∀ k : Nat, 1 ≤ k → k ≤ paramCount (instrCode w) → digit w (k + 1) = digit v (k + 1)) →
    decode w = decode v) ∧
  paramCount 99 = 0 ∧
  (∀ c, c = 3 ∨ c = 4 ∨ c = 9 → paramCount c = 1) ∧
  (∀ c, c = 5 ∨ c = 6 → paramCount c = 2) ∧
  (∀ c, c = 1 ∨ c = 2 ∨ c = 7 ∨ c = 8 → paramCount c = 3) ∧
  decode 99900001 = .ok (.add .position .position .position)

/-! ## The instruction cycle -/

/-- A step of a RUNNING core whose fetch succeeds on a word that decodes to `i` is `exec` of `i`; when that leaves the core
no longer RUNNING, the run returns and its stop reason is recorded as the reply of the run command (30_encoding.md R93,
60_exceptions.md R216; the reply list is the model's, entries 6 and 7). -/
def Obligations.StepRunsDecodedInstruction : Prop :=
  ∀ (s : State) (i : Instr), executes s i →
    ∃ t, exec i s = .next t ∧
      step s = .next { t with
        port := { t.port with replies := t.port.replies ++ (stopReason t).toList.map Reply.stopped } }

/-- The fetch of a RUNNING core: at exactly PC = L under TRAP it raises EndOfProgram; otherwise at or beyond `MEM_CAP` it
raises MemoryCapacity; otherwise at or beyond L it reads 0, which is InvalidOpcode with word 0 (30_encoding.md R91,
20_memory.md R55; D2, D7; the third clause reads memory beyond L, which the invariant says is 0; the
record and the FAULTED status are 60_exceptions.md R201, R204 and D19; that the stop reason is appended to the replies is the
model's choice, entry 7). -/
def Obligations.FetchStopsAtEndOrCapacity : Prop :=
  ∀ s : State, s.status = .running →
    (atEndOfProgram s = true →
      ∃ f : FaultRecord,
        f = { cause := .endOfProgram, pc := s.pc, wordValid := false, word := 0, param := 0, value := 0 } ∧
        step s = .next { s with
          fault := f, status := .faulted,
          port := { s.port with replies := s.port.replies ++ [.stopped (.faulted f)] } }) ∧
    (atEndOfProgram s = false → pcInMemory s = false →
      ∃ f : FaultRecord,
        f = { cause := .memoryCapacity, pc := s.pc, wordValid := false, word := 0, param := 0, value := s.pc } ∧
        step s = .next { s with
          fault := f, status := .faulted,
          port := { s.port with replies := s.port.replies ++ [.stopped (.faulted f)] } }) ∧
    (Inv s → fetchable s = true → s.memLen ≤ s.pc →
      ∃ f : FaultRecord,
        f = { cause := .invalidOpcode, pc := s.pc, wordValid := true, word := 0, param := 0, value := 0 } ∧
        step s = .next { s with
          fault := f, status := .faulted,
          port := { s.port with replies := s.port.replies ++ [.stopped (.faulted f)] } })

/-- A word the decoder rejects ends the run FAULTED with the record of 60_exceptions.md R201 (the whole word, the parameter
and the digit) and changes nothing else; in particular memory is untouched (30_encoding.md R92; D4, D5, D12, D19; that the
stop reason is appended to the replies is the model's choice, entry 7). -/
def Obligations.DecodeFaultIsRecorded : Prop :=
  ∀ (s : State) (e : DecodeError), s.status = .running → fetchable s = true →
    decode (s.mem.read s.pc) = .error e →
    ∃ f : FaultRecord,
      (e = .invalidOpcode → f = recordAt s .invalidOpcode 0 0) ∧
      (∀ k d, e = .invalidMode k d → f = recordAt s .invalidMode k d) ∧
      (∀ k, e = .immediateWrite k → f = recordAt s .immediateWrite k 0) ∧
      step s = .next { s with
        fault := f, status := .faulted,
        port := { s.port with replies := s.port.replies ++ [.stopped (.faulted f)] } }

/-- Every code outside the table is illegal: code 0 and codes 10 to 98. Such a word raises InvalidOpcode, carrying PC and the
whole word; execution stops at once and nothing else changes (30_encoding.md R74; the record and the
status are D19; that the stop reason is appended to the replies is the model's choice, entry 7). -/
def Obligations.IllegalCodesFault : Prop :=
  (∀ w : Word, decode w = .error .invalidOpcode ↔ instrCode w = 0 ∨ (10 ≤ instrCode w ∧ instrCode w ≤ 98)) ∧
  (∀ s : State, s.status = .running → fetchable s = true →
    instrCode (s.mem.read s.pc) = 0 ∨ (10 ≤ instrCode (s.mem.read s.pc) ∧ instrCode (s.mem.read s.pc) ≤ 98) →
    ∃ f : FaultRecord,
      f = { cause := .invalidOpcode, pc := s.pc, wordValid := true, word := s.mem.read s.pc, param := 0, value := 0 } ∧
      step s = .next { s with
        fault := f, status := .faulted,
        port := { s.port with replies := s.port.replies ++ [.stopped (.faulted f)] } }) ∧
  decode 100 = .error .invalidOpcode ∧ decode 110 = .error .invalidOpcode ∧ decode 1000 = .error .invalidOpcode ∧
  decode 199 = .ok .halt ∧ decode 1099 = .ok .halt

/-- Fault entry, for every fault of every instruction: a run that ends FAULTED has changed nothing but `fault` and `status`
(and the reply the host gets), and the record names a cause and the PC (60_exceptions.md R204, R205; D12, D19; that the stop
reason is appended to the replies is the model's choice, entry 7). -/
def Obligations.FaultEntryKeepsEverythingElse : Prop :=
  ∀ s t : State, s.status = .running → step s = .next t → t.status = .faulted →
    t = { s with
      fault := t.fault, status := .faulted,
      port := { s.port with replies := s.port.replies ++ [.stopped (.faulted t.fault)] } } ∧
    t.fault.cause ≠ .noFault ∧ t.fault.pc = s.pc ∧
    (t.fault.wordValid = true → t.fault.word = s.mem.read s.pc) ∧
    (t.fault.wordValid = false → t.fault.word = 0)

/-- What a recorded cause says of the instruction that raised it, of the condition and of what is recorded: the columns of
60_exceptions.md R201 (the causes and the record are D1 to D5, D7, D8, D16, D19). The address recorded is the one the
parameter resolves to, or for MemoryCapacity perhaps that of the parameter word or of the instruction word. -/
def Obligations.FaultCauseNamesItsInstruction : Prop :=
  ∀ (s t : State) (w : Word) (f : FaultRecord), s.status = .running → step s = .next t → t.status = .faulted →
    w = s.mem.read s.pc → f = t.fault →
    (f.cause = .endOfProgram ↔ atEndOfProgram s = true) ∧
    (f.cause = .endOfProgram → f.wordValid = false ∧ f.param = 0 ∧ f.value = 0) ∧
    (f.cause = .invalidOpcode → codeDefined (instrCode w) = false ∧ f.wordValid = true ∧ f.param = 0 ∧ f.value = 0) ∧
    (f.cause = .invalidMode → f.wordValid = true ∧ 1 ≤ instrCode w ∧ instrCode w ≤ 9 ∧
      1 ≤ f.param.val ∧ f.param.val ≤ paramCount (instrCode w) ∧
      f.value = digit w (f.param.val + 1) ∧ 3 ≤ f.value ∧ f.value ≤ 9) ∧
    (f.cause = .immediateWrite → f.wordValid = true ∧
      (instrCode w = 1 ∨ instrCode w = 2 ∨ instrCode w = 3 ∨ instrCode w = 7 ∨ instrCode w = 8) ∧
      f.param.val = writeParam (instrCode w) ∧ digit w (f.param.val + 1) = 1 ∧ f.value = 0) ∧
    (f.cause = .negativeAddress → f.wordValid = true ∧ f.value < 0 ∧
      ∃ i m, executes s i ∧ paramMode i f.param = some m ∧ operandAddress f.param m s = some f.value) ∧
    (f.cause = .memoryCapacity → (∃ cap, s.config.memCap = some cap ∧ (cap : Int) ≤ f.value) ∧
      ((f.wordValid = false ∧ f.param = 0 ∧ f.value = s.pc) ∨
        (f.wordValid = true ∧ ∃ i m, executes s i ∧ paramMode i f.param = some m ∧
          (f.value = (s.pc + f.param.val : Nat) ∨ operandAddress f.param m s = some f.value)))) ∧
    (f.cause = .negativeJumpTarget → f.wordValid = true ∧ f.param = 2 ∧ f.value < 0 ∧
      ∃ m1 m2, f.value = operandValue 2 m2 s ∧
        ((executes s (.jumpIfTrue m1 m2) ∧ operandValue 1 m1 s ≠ 0) ∨
          (executes s (.jumpIfFalse m1 m2) ∧ operandValue 1 m1 s = 0))) ∧
    (f.cause = .wordOverflow → f.wordValid = true ∧ f.param = 0 ∧ inWord s.config f.value = false ∧
      ∃ i, executes s i ∧ exactResult i s f.value) ∧
    (f.cause = .outputQueueFull → f.wordValid = true ∧ f.param = 0 ∧ f.value = 0 ∧
      s.config.oqCap = some s.oq.length ∧ ∃ m1, executes s (.output m1))

/-- An input instruction with an immediate target faults even when IQ is empty; one with a bad write address blocks while
IQ is empty, and faults once a value is there (60_exceptions.md R203; D13). -/
def Obligations.InputFaultsAndBlocksInOrder : Prop :=
  ∀ s : State, s.status = .running → fetchable s = true → instrCode (s.mem.read s.pc) = 3 →
    (digit (s.mem.read s.pc) 2 = 1 →
      ∃ t, step s = .next t ∧ t.status = .faulted ∧ t.fault = recordAt s .immediateWrite 1 0) ∧
    (digit (s.mem.read s.pc) 2 = 0 → s.iq = [] → ∃ t, step s = .next t ∧ t.status = .blocked) ∧
    (digit (s.mem.read s.pc) 2 = 0 → s.iq ≠ [] → pcInMemory { s with pc := s.pc + 1 } = true →
      s.mem.read (s.pc + 1) < 0 →
      ∃ t, step s = .next t ∧ t.status = .faulted ∧
        t.fault = recordAt s .negativeAddress 1 (s.mem.read (s.pc + 1)))

/-! ## The instructions: encoding, completion, faults -/

/-- add: the words that decode to it; with operands that meet no address fault, the exact sum is written to dst and PC
advances by 4 when it is a word, and WordOverflow is taken with the exact sum when it is not; else the first operand fault
is taken. L grows over every address touched, and nothing else changes, so no flag is written (40_arithmetic.md R110;
the address faults are D2 and D3, the overflow D1, growth at commit only D12). -/
def Obligations.AddWritesExactSum : Prop :=
  ∀ m1 m2 m3 : Mode,
    (∀ w : Word, decode w = .ok (.add m1 m2 m3) ↔
      instrCode w = 1 ∧ digit w 2 = modeDigit m1 ∧ digit w 3 = modeDigit m2 ∧ digit w 4 = modeDigit m3 ∧
        m3 ≠ .immediate) ∧
    (m3 ≠ .immediate → ∀ s : State,
      (problem3 m1 m2 m3 s = none → inWord s.config (operandValue 1 m1 s + operandValue 2 m2 s) = true →
        exec (.add m1 m2 m3) s = .next { s with
          mem := s.mem.write (targetAddress 3 m3 s) (operandValue 1 m1 s + operandValue 2 m2 s)
          memLen := growTo s.memLen (touched3 m1 m2 m3 s)
          pc := s.pc + 4 }) ∧
      (problem3 m1 m2 m3 s = none → inWord s.config (operandValue 1 m1 s + operandValue 2 m2 s) = false →
        exec (.add m1 m2 m3) s = .next { s with
          fault := recordAt s .wordOverflow 0 (operandValue 1 m1 s + operandValue 2 m2 s)
          status := .faulted }) ∧
      (∀ f, problem3 m1 m2 m3 s = some f →
        exec (.add m1 m2 m3) s = .next { s with fault := f, status := .faulted }))

/-- mul: as add, with the exact product (40_arithmetic.md R111; D1, D2, D3, D12). -/
def Obligations.MulWritesExactProduct : Prop :=
  ∀ m1 m2 m3 : Mode,
    (∀ w : Word, decode w = .ok (.mul m1 m2 m3) ↔
      instrCode w = 2 ∧ digit w 2 = modeDigit m1 ∧ digit w 3 = modeDigit m2 ∧ digit w 4 = modeDigit m3 ∧
        m3 ≠ .immediate) ∧
    (m3 ≠ .immediate → ∀ s : State,
      (problem3 m1 m2 m3 s = none → inWord s.config (operandValue 1 m1 s * operandValue 2 m2 s) = true →
        exec (.mul m1 m2 m3) s = .next { s with
          mem := s.mem.write (targetAddress 3 m3 s) (operandValue 1 m1 s * operandValue 2 m2 s)
          memLen := growTo s.memLen (touched3 m1 m2 m3 s)
          pc := s.pc + 4 }) ∧
      (problem3 m1 m2 m3 s = none → inWord s.config (operandValue 1 m1 s * operandValue 2 m2 s) = false →
        exec (.mul m1 m2 m3) s = .next { s with
          fault := recordAt s .wordOverflow 0 (operandValue 1 m1 s * operandValue 2 m2 s)
          status := .faulted }) ∧
      (∀ f, problem3 m1 m2 m3 s = some f →
        exec (.mul m1 m2 m3) s = .next { s with fault := f, status := .faulted }))

/-- input: with IQ empty only `status` changes, to BLOCKED, before any parameter word is read; else the front of IQ is
written to dst and removed and PC advances by 2, or the address fault of dst is taken with IQ unchanged
(41_io.md R120; the place of the empty test is D27). -/
def Obligations.InputConsumesOneValueOrBlocks : Prop :=
  ∀ m1 : Mode,
    (∀ w : Word, decode w = .ok (.input m1) ↔ instrCode w = 3 ∧ digit w 2 = modeDigit m1 ∧ m1 ≠ .immediate) ∧
    (m1 ≠ .immediate → ∀ s : State,
      (s.iq = [] → exec (.input m1) s = .next { s with status := .blocked }) ∧
      (∀ x rest, s.iq = x :: rest → operandProblem 1 m1 s = none →
        exec (.input m1) s = .next { s with
          mem := s.mem.write (targetAddress 1 m1 s) x
          memLen := growTo s.memLen (touched1 m1 s)
          iq := rest
          pc := s.pc + 2 }) ∧
      (∀ f, s.iq ≠ [] → operandProblem 1 m1 s = some f →
        exec (.input m1) s = .next { s with fault := f, status := .faulted }))

/-- output: the operand is appended to OQ and PC advances by 2 when OQ has room; OutputQueueFull is taken when OQ holds
`OQ_CAP` words; an operand fault comes first (41_io.md R121; the full queue is D16). -/
def Obligations.OutputAppendsOperand : Prop :=
  ∀ m1 : Mode,
    (∀ w : Word, decode w = .ok (.output m1) ↔ instrCode w = 4 ∧ digit w 2 = modeDigit m1) ∧
    (∀ s : State,
      (operandProblem 1 m1 s = none → s.config.oqCap ≠ some s.oq.length →
        exec (.output m1) s = .next { s with
          oq := s.oq ++ [operandValue 1 m1 s]
          memLen := growTo s.memLen (touched1 m1 s)
          pc := s.pc + 2 }) ∧
      (operandProblem 1 m1 s = none → s.config.oqCap = some s.oq.length →
        exec (.output m1) s = .next { s with
          fault := recordAt s .outputQueueFull 0 0
          status := .faulted }) ∧
      (∀ f, operandProblem 1 m1 s = some f →
        exec (.output m1) s = .next { s with fault := f, status := .faulted }))

/-- jump-if-true: taken exactly when a is not 0, to the value of target, which must not be negative; PC + 3 otherwise,
whatever the target is. Both operands are resolved, and L grows over them, either way (42_jumps.md R130; the
negative target is D8, the address faults D2 and D3). -/
def Obligations.JumpIfTrueTakesNonzero : Prop :=
  ∀ m1 m2 : Mode,
    (∀ w : Word, decode w = .ok (.jumpIfTrue m1 m2) ↔
      instrCode w = 5 ∧ digit w 2 = modeDigit m1 ∧ digit w 3 = modeDigit m2) ∧
    (∀ s : State,
      (problem2 m1 m2 s = none → operandValue 1 m1 s ≠ 0 → 0 ≤ operandValue 2 m2 s →
        exec (.jumpIfTrue m1 m2) s = .next { s with
          memLen := growTo s.memLen (touched2 m1 m2 s)
          pc := (operandValue 2 m2 s).toNat }) ∧
      (problem2 m1 m2 s = none → operandValue 1 m1 s ≠ 0 → operandValue 2 m2 s < 0 →
        exec (.jumpIfTrue m1 m2) s = .next { s with
          fault := recordAt s .negativeJumpTarget 2 (operandValue 2 m2 s)
          status := .faulted }) ∧
      (problem2 m1 m2 s = none → operandValue 1 m1 s = 0 →
        exec (.jumpIfTrue m1 m2) s = .next { s with
          memLen := growTo s.memLen (touched2 m1 m2 s)
          pc := s.pc + 3 }) ∧
      (∀ f, problem2 m1 m2 s = some f →
        exec (.jumpIfTrue m1 m2) s = .next { s with fault := f, status := .faulted }))

/-- jump-if-false: as jump-if-true with the condition inverted (42_jumps.md R131; D2, D3, D8). -/
def Obligations.JumpIfFalseTakesZero : Prop :=
  ∀ m1 m2 : Mode,
    (∀ w : Word, decode w = .ok (.jumpIfFalse m1 m2) ↔
      instrCode w = 6 ∧ digit w 2 = modeDigit m1 ∧ digit w 3 = modeDigit m2) ∧
    (∀ s : State,
      (problem2 m1 m2 s = none → operandValue 1 m1 s = 0 → 0 ≤ operandValue 2 m2 s →
        exec (.jumpIfFalse m1 m2) s = .next { s with
          memLen := growTo s.memLen (touched2 m1 m2 s)
          pc := (operandValue 2 m2 s).toNat }) ∧
      (problem2 m1 m2 s = none → operandValue 1 m1 s = 0 → operandValue 2 m2 s < 0 →
        exec (.jumpIfFalse m1 m2) s = .next { s with
          fault := recordAt s .negativeJumpTarget 2 (operandValue 2 m2 s)
          status := .faulted }) ∧
      (problem2 m1 m2 s = none → operandValue 1 m1 s ≠ 0 →
        exec (.jumpIfFalse m1 m2) s = .next { s with
          memLen := growTo s.memLen (touched2 m1 m2 s)
          pc := s.pc + 3 }) ∧
      (∀ f, problem2 m1 m2 s = some f →
        exec (.jumpIfFalse m1 m2) s = .next { s with fault := f, status := .faulted }))

/-- less-than: 1 is written to dst when a < b as signed integers, else 0; PC + 4; the only faults are those of its operands
(43_compare.md R140; the address faults are D2 and D3). -/
def Obligations.LessThanWritesTruth : Prop :=
  ∀ m1 m2 m3 : Mode,
    (∀ w : Word, decode w = .ok (.lessThan m1 m2 m3) ↔
      instrCode w = 7 ∧ digit w 2 = modeDigit m1 ∧ digit w 3 = modeDigit m2 ∧ digit w 4 = modeDigit m3 ∧
        m3 ≠ .immediate) ∧
    (m3 ≠ .immediate → ∀ s : State,
      (problem3 m1 m2 m3 s = none →
        exec (.lessThan m1 m2 m3) s = .next { s with
          mem := s.mem.write (targetAddress 3 m3 s) (if operandValue 1 m1 s < operandValue 2 m2 s then 1 else 0)
          memLen := growTo s.memLen (touched3 m1 m2 m3 s)
          pc := s.pc + 4 }) ∧
      (∀ f, problem3 m1 m2 m3 s = some f →
        exec (.lessThan m1 m2 m3) s = .next { s with fault := f, status := .faulted }))

/-- equals: 1 is written to dst when a = b, else 0; PC + 4; the only faults are those of its operands
(43_compare.md R141; the address faults are D2 and D3). -/
def Obligations.EqualsWritesTruth : Prop :=
  ∀ m1 m2 m3 : Mode,
    (∀ w : Word, decode w = .ok (.equals m1 m2 m3) ↔
      instrCode w = 8 ∧ digit w 2 = modeDigit m1 ∧ digit w 3 = modeDigit m2 ∧ digit w 4 = modeDigit m3 ∧
        m3 ≠ .immediate) ∧
    (m3 ≠ .immediate → ∀ s : State,
      (problem3 m1 m2 m3 s = none →
        exec (.equals m1 m2 m3) s = .next { s with
          mem := s.mem.write (targetAddress 3 m3 s) (if operandValue 1 m1 s = operandValue 2 m2 s then 1 else 0)
          memLen := growTo s.memLen (touched3 m1 m2 m3 s)
          pc := s.pc + 4 }) ∧
      (∀ f, problem3 m1 m2 m3 s = some f →
        exec (.equals m1 m2 m3) s = .next { s with fault := f, status := .faulted }))

/-- adjust-base: the operand, resolved with the old base, is added to RB, and PC advances by 2, when the exact new base is a
word; WordOverflow with the exact new base otherwise; an operand fault comes first (44_base.md R150; D1, D2, D3). -/
def Obligations.AdjustBaseAddsToBase : Prop :=
  ∀ m1 : Mode,
    (∀ w : Word, decode w = .ok (.adjustBase m1) ↔ instrCode w = 9 ∧ digit w 2 = modeDigit m1) ∧
    (∀ s : State,
      (operandProblem 1 m1 s = none → inWord s.config (s.rb + operandValue 1 m1 s) = true →
        exec (.adjustBase m1) s = .next { s with
          rb := s.rb + operandValue 1 m1 s
          memLen := growTo s.memLen (touched1 m1 s)
          pc := s.pc + 2 }) ∧
      (operandProblem 1 m1 s = none → inWord s.config (s.rb + operandValue 1 m1 s) = false →
        exec (.adjustBase m1) s = .next { s with
          fault := recordAt s .wordOverflow 0 (s.rb + operandValue 1 m1 s)
          status := .faulted }) ∧
      (∀ f, operandProblem 1 m1 s = some f →
        exec (.adjustBase m1) s = .next { s with fault := f, status := .faulted }))

/-- halt: every word whose code is 99 is a halt; it sets `halted` and `status` and changes nothing else, so that PC keeps
the halt's address, and the run returns HALTED (45_halt.md R160; PC after halt is D9; the reply is entry 7). -/
def Obligations.HaltStopsTheRun : Prop :=
  (∀ w : Word, decode w = .ok .halt ↔ instrCode w = 99) ∧
  (∀ s : State, exec .halt s = .next { s with halted := true, status := .halted }) ∧
  (∀ s : State, s.status = .running → fetchable s = true → instrCode (s.mem.read s.pc) = 99 →
    step s = .next { s with
      halted := true, status := .halted,
      port := { s.port with replies := s.port.replies ++ [.stopped .halted] } })

/-- The comparisons write exactly 1 when they hold and 0 when they do not, which are words under every legal configuration,
and never raise WordOverflow; the jumps test a 1 as non-zero and a 0 as zero, as the PC they leave shows (43_compare.md R142; all that
a jump does is JumpIfTrueTakesNonzero and JumpIfFalseTakesZero). The operands are whatever
they are; a comparison that does not end in a fault has written its result. -/
def Obligations.ComparisonResultIsZeroOrOne : Prop :=
  (∀ (s t : State) (m1 m2 m3 : Mode) (i : Instr), i = .lessThan m1 m2 m3 ∨ i = .equals m1 m2 m3 → m3 ≠ .immediate →
    s.config.legal = true → s.mem.wf → s.status = .running → exec i s = .next t →
    (t.status = .faulted → t.fault.cause ≠ .wordOverflow) ∧
    (t.status ≠ .faulted →
      (i = .lessThan m1 m2 m3 →
        t.mem.read (targetAddress 3 m3 s) = if operandValue 1 m1 s < operandValue 2 m2 s then 1 else 0) ∧
      (i = .equals m1 m2 m3 →
        t.mem.read (targetAddress 3 m3 s) = if operandValue 1 m1 s = operandValue 2 m2 s then 1 else 0) ∧
      inWord t.config (t.mem.read (targetAddress 3 m3 s)) = true)) ∧
  (∀ (s : State) (m1 m2 : Mode), problem2 m1 m2 s = none → 0 ≤ operandValue 2 m2 s →
    ∃ t f, exec (.jumpIfTrue m1 m2) s = .next t ∧ exec (.jumpIfFalse m1 m2) s = .next f ∧
      (operandValue 1 m1 s = 1 → (t.pc : Int) = operandValue 2 m2 s ∧ f.pc = s.pc + 3) ∧
      (operandValue 1 m1 s = 0 → t.pc = s.pc + 3 ∧ (f.pc : Int) = operandValue 2 m2 s))

/-! ## Frames -/

/-- What add, mul, less-than and equals leave unchanged: every register but PC (and the memory length), both queues,
`halted`, the configuration and the host's port; `status` and `fault` unless a fault is taken, which leaves memory, L and PC
alone; and every cell except the one whose address the write target resolves to. -/
def Obligations.BinaryStoreFrame : Prop :=
  ∀ (s t : State) (m1 m2 m3 : Mode) (i : Instr),
    i = .add m1 m2 m3 ∨ i = .mul m1 m2 m3 ∨ i = .lessThan m1 m2 m3 ∨ i = .equals m1 m2 m3 →
    exec i s = .next t →
    t.config = s.config ∧ t.rb = s.rb ∧ t.iq = s.iq ∧ t.oq = s.oq ∧ t.halted = s.halted ∧ t.port = s.port ∧
    ((t.status = s.status ∧ t.fault = s.fault) ∨
      (t.status = .faulted ∧ t.mem = s.mem ∧ t.memLen = s.memLen ∧ t.pc = s.pc)) ∧
    (∀ d, writeTarget 3 m3 s = .ok d → ∀ a, a ≠ d.addr → t.mem.read a = s.mem.read a) ∧
    (∀ f, writeTarget 3 m3 s = .error f → ∀ a, t.mem.read a = s.mem.read a)

/-- What input leaves unchanged: as the binary stores, with IQ either unchanged or shorter by its front word. -/
def Obligations.InputFrame : Prop :=
  ∀ (s t : State) (m1 : Mode), exec (.input m1) s = .next t →
    t.config = s.config ∧ t.rb = s.rb ∧ t.oq = s.oq ∧ t.halted = s.halted ∧ t.port = s.port ∧
    ((t.status = s.status ∧ t.fault = s.fault ∧ ∃ x, s.iq = x :: t.iq) ∨
      ((t.status = .faulted ∨ (t.status = .blocked ∧ t.fault = s.fault)) ∧
        t.mem = s.mem ∧ t.memLen = s.memLen ∧ t.pc = s.pc ∧ t.iq = s.iq)) ∧
    (∀ d, writeTarget 1 m1 s = .ok d → ∀ a, a ≠ d.addr → t.mem.read a = s.mem.read a) ∧
    (∀ f, writeTarget 1 m1 s = .error f → ∀ a, t.mem.read a = s.mem.read a)

/-- What the instructions that store nothing (output, the jumps, adjust-base, halt) leave unchanged: all of memory, IQ, the
configuration and the port; OQ but for output, RB but for adjust-base, `halted` but for halt; `status` and `fault` unless a
fault is taken or the core halts. -/
def Obligations.NonStoringFrame : Prop :=
  ∀ (s t : State) (i : Instr), stores i = false → exec i s = .next t →
    t.config = s.config ∧ t.iq = s.iq ∧ t.port = s.port ∧
    (∀ a, t.mem.read a = s.mem.read a) ∧
    (t.rb = s.rb ∨ ∃ m1, i = .adjustBase m1) ∧
    (t.oq = s.oq ∨ ∃ m1 v, i = .output m1 ∧ t.oq = s.oq ++ [v]) ∧
    ((t.halted = s.halted ∧ t.status = s.status ∧ t.fault = s.fault) ∨
      (i = .halt ∧ t.fault = s.fault ∧ t.memLen = s.memLen ∧ t.pc = s.pc ∧ t.rb = s.rb ∧ t.oq = s.oq) ∨
      (t.status = .faulted ∧ t.halted = s.halted ∧ t.memLen = s.memLen ∧ t.pc = s.pc ∧ t.rb = s.rb ∧ t.oq = s.oq))

/-- The five storing instructions leave their result readable at the write address (20_memory.md R53, R54, R62): the memory
is in its canonical form, the operands meet no fault and the result is a word. -/
def Obligations.StoredResultIsReadBack : Prop :=
  ∀ (s : State) (m1 m2 m3 : Mode), s.mem.wf → m3 ≠ .immediate → problem3 m1 m2 m3 s = none →
    (inWord s.config (operandValue 1 m1 s + operandValue 2 m2 s) = true →
      ∃ t, exec (.add m1 m2 m3) s = .next t ∧
        t.mem.read (targetAddress 3 m3 s) = operandValue 1 m1 s + operandValue 2 m2 s) ∧
    (inWord s.config (operandValue 1 m1 s * operandValue 2 m2 s) = true →
      ∃ t, exec (.mul m1 m2 m3) s = .next t ∧
        t.mem.read (targetAddress 3 m3 s) = operandValue 1 m1 s * operandValue 2 m2 s) ∧
    (∃ t, exec (.lessThan m1 m2 m3) s = .next t ∧
      t.mem.read (targetAddress 3 m3 s) = if operandValue 1 m1 s < operandValue 2 m2 s then 1 else 0) ∧
    (∃ t, exec (.equals m1 m2 m3) s = .next t ∧
      t.mem.read (targetAddress 3 m3 s) = if operandValue 1 m1 s = operandValue 2 m2 s then 1 else 0) ∧
    (m1 ≠ .immediate → ∀ x rest, s.iq = x :: rest →
      ∃ t, exec (.input m1) s = .next t ∧ t.mem.read (targetAddress 1 m1 s) = x)

/-- A write is seen by the very next fetch: when add, mul, less-than, equals or input stores at the address PC then holds,
that fetch gives the word stored; and a host write between runs is seen likewise (20_memory.md R65,
70_reset_and_hazards.md R257). -/
def Obligations.WriteIsSeenByNextFetch : Prop :=
  (∀ (s : State) (m1 m2 m3 : Mode) (i : Instr) (r : Word), s.mem.wf → m3 ≠ .immediate → problem3 m1 m2 m3 s = none →
    targetAddress 3 m3 s = s.pc + 4 →
    (i = .add m1 m2 m3 ∧ r = operandValue 1 m1 s + operandValue 2 m2 s ∧ inWord s.config r = true) ∨
      (i = .mul m1 m2 m3 ∧ r = operandValue 1 m1 s * operandValue 2 m2 s ∧ inWord s.config r = true) ∨
      (i = .lessThan m1 m2 m3 ∧ r = if operandValue 1 m1 s < operandValue 2 m2 s then 1 else 0) ∨
      (i = .equals m1 m2 m3 ∧ r = if operandValue 1 m1 s = operandValue 2 m2 s then 1 else 0) →
    ∃ t, exec i s = .next t ∧ t.pc = s.pc + 4 ∧ fetch t = .ok r) ∧
  (∀ (s : State) (m1 : Mode) (x : Word) (rest : List Word), s.mem.wf → m1 ≠ .immediate →
    operandProblem 1 m1 s = none → targetAddress 1 m1 s = s.pc + 2 → s.iq = x :: rest →
    ∃ t, exec (.input m1) s = .next t ∧ t.pc = s.pc + 2 ∧ fetch t = .ok x) ∧
  (∀ (s t : State) (i v : Int), s.mem.wf → writeMemory i v s = some t → i = s.pc → fetch t = .ok v)

/-! ## Whole-machine rules -/

/-- RB changes only by adjust-base and by construct (10_state.md R27; construct through the port is entry 8). -/
def Obligations.RelativeBaseHasOneWriter : Prop :=
  ∀ s t : State, step s = .next t → t.rb ≠ s.rb →
    (∃ m1, executes s (.adjustBase m1)) ∨ ∃ program, commanded s (.construct program)

/-- IQ is first in, first out: a word enters at the back by an add_input that is accepted, and by that alone; its front word
is removed when an input instruction commits, and by that alone; an input instruction finds it empty and blocks; reset, and
construct for a new core, discard all of it (60_exceptions.md R225; construct through the port is the model's
choice, entry 8, and so are the pending and reply lists, entry 6, in which an accepted add_input is known by its reply). -/
def Obligations.InputQueueIsFifo : Prop :=
  ∀ s t : State, step s = .next t →
    (t.iq = s.iq ∨
      ((∃ m1, executes s (.input m1)) ∧ ∃ x, s.iq = x :: t.iq) ∨
      (∃ v, commanded s (.addInput v) ∧ t.iq = s.iq ++ [v]) ∨
      (commanded s .reset ∧ t.iq = []) ∨
      (∃ program, commanded s (.construct program) ∧ t.iq = [])) ∧
    (∀ v, commanded s (.addInput v) → t.port.replies = s.port.replies ++ [.ok] → t.iq = s.iq ++ [v]) ∧
    (∀ m1 x rest, executes s (.input m1) → s.iq = x :: rest → t.status ≠ .faulted →
      t.iq = rest ∧ t.mem = s.mem.write (targetAddress 1 m1 s) x) ∧
    (∀ m1, executes s (.input m1) → (s.iq = [] ↔ t.status = .blocked)) ∧
    (commanded s .reset → t.iq = [])

/-- OQ is first in, first out: a word enters at the back when an output instruction commits, and by that alone; the front
leaves by pop_output, and by that alone; reset and faults do not touch it (60_exceptions.md R226; that
construct through the port makes a new core is the model's choice, entry 8, and the pending list is entry 6). -/
def Obligations.OutputQueueIsFifo : Prop :=
  ∀ s t : State, step s = .next t →
    (t.oq = s.oq ∨
      (∃ m1, executes s (.output m1) ∧ t.oq = s.oq ++ [operandValue 1 m1 s]) ∨
      (commanded s .popOutput ∧ t.oq = s.oq.tail) ∨
      (∃ program, commanded s (.construct program) ∧ t.oq = [])) ∧
    (∀ m1, executes s (.output m1) → t.status ≠ .faulted → t.oq = s.oq ++ [operandValue 1 m1 s]) ∧
    (commanded s .popOutput → t.oq = s.oq.tail) ∧
    (commanded s .reset → t.oq = s.oq) ∧
    (s.status = .running → t.status = .faulted → t.oq = s.oq)

/-- Memory never shrinks: no step lowers L but a construct, and a cell changes only when the instruction executed stores to
that very cell or the host writes it, or by a construct (20_memory.md R56, R60). -/
def Obligations.MemoryNeverShrinks : Prop :=
  ∀ s t : State, step s = .next t → (∀ program, ¬commanded s (.construct program)) →
    s.memLen ≤ t.memLen ∧
    ∀ a, t.mem.read a ≠ s.mem.read a →
      (∃ m1 m2 m3, (executes s (.add m1 m2 m3) ∨ executes s (.mul m1 m2 m3) ∨ executes s (.lessThan m1 m2 m3) ∨
        executes s (.equals m1 m2 m3)) ∧ a = targetAddress 3 m3 s) ∨
      (∃ m1, executes s (.input m1) ∧ a = targetAddress 1 m1 s) ∨
      ∃ v, commanded s (.writeMemory a v)

/-- `halted` is set by the halt instruction alone and cleared by reset and construct alone (10_state.md R30; construct
on a core that exists is the model's choice, entry 8). -/
def Obligations.HaltedHasOneSetter : Prop :=
  ∀ s t : State, step s = .next t → t.halted ≠ s.halted →
    (executes s .halt ∧ t.halted = true) ∨
    ((commanded s .reset ∨ ∃ program, commanded s (.construct program)) ∧ t.halted = false)

/-- PC moves only forward over the instruction, or to the value of a jump's target: the two conditional jumps are the only
instructions that set it to a computed value (42_jumps.md R132, 10_state.md R25). -/
def Obligations.OnlyJumpsSetComputedPc : Prop :=
  ∀ (s t : State) (i : Instr), exec i s = .next t →
    t.pc = s.pc ∨ t.pc = s.pc + 1 + (modesOf i).length ∨
    ∃ m1 m2, (i = .jumpIfTrue m1 m2 ∨ i = .jumpIfFalse m1 m2) ∧ 0 ≤ operandValue 2 m2 s ∧
      (t.pc : Int) = operandValue 2 m2 s

/-- No instruction reads `status`, `halted`, `fault` or the host's port: two cores that differ in these alone do the same to
memory, L, PC, RB and both queues, and one faults, blocks or halts exactly when the other does; an instruction that does
none of these leaves the four as each core had them (10_state.md R34, R35; the port is the model's choice, entry 6). -/
def Obligations.ControlStateIsNotRead : Prop :=
  ∀ (s t u v : State) (i : Instr),
    u = { s with halted := u.halted, status := u.status, fault := u.fault, port := u.port } →
    exec i s = .next t → exec i u = .next v →
    v.config = t.config ∧ v.mem = t.mem ∧ v.memLen = t.memLen ∧ v.pc = t.pc ∧ v.rb = t.rb ∧ v.iq = t.iq ∧ v.oq = t.oq ∧
    t.port = s.port ∧ v.port = u.port ∧
    ((t.halted = s.halted ∧ t.status = s.status ∧ t.fault = s.fault ∧
        v.halted = u.halted ∧ v.status = u.status ∧ v.fault = u.fault) ∨
      (t.halted = s.halted ∧ t.status = .faulted ∧ v.halted = u.halted ∧ v.status = .faulted ∧ v.fault = t.fault) ∨
      (t.halted = s.halted ∧ t.status = .blocked ∧ t.fault = s.fault ∧
        v.halted = u.halted ∧ v.status = .blocked ∧ v.fault = u.fault) ∨
      (t.halted = true ∧ t.status = .halted ∧ t.fault = s.fault ∧
        v.halted = true ∧ v.status = .halted ∧ v.fault = u.fault))

/-- The parameters do not change while a core exists, nor when construct makes a new one (10_state.md R20; entries 1
and 8). -/
def Obligations.ConfigurationNeverChanges : Prop :=
  ∀ s t : State, step s = .next t → t.config = s.config

/-- The run state machine: which status can follow which, and by which event (60_exceptions.md R217; D19). The clause
about construct is about a core that exists already, the model's choice of entry 8, where a refused construct changes
nothing; that commands come one a step, and that an idle core keeps its status, is the model's choice of entry 6. -/
def Obligations.StatusFollowsStateMachine : Prop :=
  ∀ s t : State, step s = .next t →
    (s.status = .running → t.status ≠ .ready) ∧
    (s.status = .running → t.status = .halted → executes s .halt) ∧
    (s.status = .running → t.status = .blocked → s.iq = [] ∧ ∃ m1, executes s (.input m1)) ∧
    (commanded s .run → s.status ≠ .halted → t.status = .running) ∧
    (commanded s .run → s.status = .halted → t.status = .halted) ∧
    (commanded s .reset → t.status = .ready) ∧
    (∀ program, commanded s (.construct program) → t.status = .ready ∨ t.status = s.status) ∧
    (∀ c, commanded s c → c ≠ .run → c ≠ .reset → (∀ program, c ≠ .construct program) → t.status = s.status) ∧
    (s.status ≠ .running → s.port.pending = [] → t.status = s.status)

/-- Every step answers a next state: no fault, block, refusal or halt stops the machine for good, since the host can always
go on (60_exceptions.md R206, R233; the model's reading is entry 9). -/
def Obligations.EveryStepContinues : Prop :=
  ∀ s : State, ∃ t, step s = .next t

/-- The invariant holds of the reset state. -/
def Obligations.ResetStateMeetsInvariant : Prop := Inv State.reset

/-- Every step keeps the invariant: legal parameters; canonical memory of words, all below L and within `MEM_CAP`; RB and
both queues hold words within their capacities; `halted` agrees with `status`; the fault record is empty unless FAULTED, and
then names a cause and the PC (00_scope.md R7, R8; 10_state.md R22, R32; 60_exceptions.md R222). -/
def Obligations.StepKeepsInvariant : Prop :=
  ∀ s t : State, Inv s → step s = .next t → Inv t

/-- The reset state holds what 10_state.md R36 lists for the empty program (that the reset state is this one is entry 4, and
that its bounds are ∞ is entry 1). -/
def Obligations.ResetStateIsEmptyConstruct : Prop :=
  construct Config.unbounded [] = some State.reset ∧
  State.reset.memLen = 0 ∧ State.reset.pc = 0 ∧ State.reset.rb = 0 ∧ State.reset.iq = [] ∧ State.reset.oq = [] ∧
  State.reset.halted = false ∧ State.reset.status = .ready ∧
  State.reset.fault = { cause := .noFault, pc := 0, wordValid := false, word := 0, param := 0, value := 0 } ∧
  State.reset.config.endPolicy = .trap ∧ (∀ a, State.reset.mem.read a = 0)

/-! ## The host interface -/

/-- construct(program): accepted exactly when every word is a word and the program fits `MEM_CAP`; then every piece of state
has the value of 10_state.md R36 (70_reset_and_hazards.md R250; D1, D2, D19, D23). A step of a core that is not RUNNING with
construct pending gives the new core under the same parameters and replies ok, or, refused, changes nothing and replies
refused (that the new core takes the place of the old one is the model's choice, entry 8, and so are the pending and reply
lists, entry 6). -/
def Obligations.ConstructLoadsProgram : Prop :=
  (∀ (c : Config) (program : List Word),
    ((∀ v ∈ program, inWord c v = true) → (∀ cap, c.memCap = some cap → program.length ≤ cap) →
      ∃ t, construct c program = some t ∧ t.mem.wf ∧ (∀ a, t.mem.read a = program.getD a 0) ∧
        t.memLen = program.length ∧ t.pc = 0 ∧ t.rb = 0 ∧ t.iq = [] ∧ t.oq = [] ∧ t.halted = false ∧
        t.status = .ready ∧ t.fault = FaultRecord.empty ∧ t.config = c) ∧
    (∀ v ∈ program, inWord c v = false → construct c program = none) ∧
    (∀ cap, c.memCap = some cap → cap < program.length → construct c program = none)) ∧
  (∀ (s : State) (program : List Word) (rest : List Command), s.status ≠ .running →
    s.port.pending = .construct program :: rest →
    (∀ t, construct s.config program = some t →
      step s = .next { t with port := { pending := rest, replies := s.port.replies ++ [.ok] } }) ∧
    (construct s.config program = none →
      step s = .next { s with port := { pending := rest, replies := s.port.replies ++ [.refused] } }))

/-- add_input(v) appends at the back of IQ and changes nothing else; it is refused, with no change, when v is not a word or
IQ holds `IQ_CAP` words (60_exceptions.md R213; D16;
the pending and reply lists are the model's choice, entry 6). -/
def Obligations.AddInputAppends : Prop :=
  ∀ (s : State) (v : Int) (rest : List Command), s.status ≠ .running → s.port.pending = .addInput v :: rest →
    (inWord s.config v = true → s.config.iqCap ≠ some s.iq.length →
      step s = .next { s with
        iq := s.iq ++ [v], port := { pending := rest, replies := s.port.replies ++ [.ok] } }) ∧
    (inWord s.config v = false ∨ s.config.iqCap = some s.iq.length →
      step s = .next { s with port := { pending := rest, replies := s.port.replies ++ [.refused] } })

/-- pop_output() removes and returns the front of OQ, or answers "none"; a popped 0 is some 0 (60_exceptions.md R214;
the pending and reply lists are the model's choice, entry 6). -/
def Obligations.PopOutputIsOptional : Prop :=
  ∀ (s : State) (rest : List Command), s.status ≠ .running → s.port.pending = .popOutput :: rest →
    (∀ v oq', s.oq = v :: oq' →
      step s = .next { s with
        oq := oq', port := { pending := rest, replies := s.port.replies ++ [.popped (some v)] } }) ∧
    (s.oq = [] →
      step s = .next { s with port := { pending := rest, replies := s.port.replies ++ [.popped none] } })

/-- is_halted() returns `halted` and changes nothing (60_exceptions.md R215; the pending and reply lists are
the model's choice, entry 6). -/
def Obligations.IsHaltedChangesNothing : Prop :=
  ∀ (s : State) (rest : List Command), s.status ≠ .running → s.port.pending = .isHalted :: rest →
    step s = .next { s with port := { pending := rest, replies := s.port.replies ++ [.halted s.halted] } }

/-- read_status() returns `status` and the fault record and changes nothing (60_exceptions.md R221; D19; the pending and
reply lists are the model's choice, entry 6). -/
def Obligations.ReadStatusChangesNothing : Prop :=
  ∀ (s : State) (rest : List Command), s.status ≠ .running → s.port.pending = .readStatus :: rest →
    step s = .next { s with
      port := { pending := rest, replies := s.port.replies ++ [.status s.status s.fault] } }

/-- reset() sets PC to 0, empties IQ, clears `halted`, sets `status` to READY and clears `fault`; mem, L, RB and OQ stay; it
is accepted in every status but RUNNING (70_reset_and_hazards.md R251; the pending and reply lists are the model's choice,
entry 6). -/
def Obligations.ResetKeepsMemoryAndBase : Prop :=
  ∀ (s : State) (rest : List Command), s.status ≠ .running → s.port.pending = .reset :: rest →
    step s = .next { s with
      pc := 0, iq := [], halted := false, status := .ready, fault := FaultRecord.empty,
      port := { pending := rest, replies := s.port.replies ++ [.ok] } }

/-- run(): on a HALTED core it returns HALTED at once and changes no state; otherwise it clears the fault record and the
core is RUNNING, to fetch at the PC it had (60_exceptions.md R206, R216, R217, R218; D10, D11; that run takes its own step is
the model's choice, entry 7, and so are the pending and reply lists, entry 6). -/
def Obligations.RunStartsUnlessHalted : Prop :=
  ∀ (s : State) (rest : List Command), s.port.pending = .run :: rest →
    (s.status = .halted →
      step s = .next { s with
        port := { pending := rest, replies := s.port.replies ++ [.stopped .halted] } }) ∧
    (s.status = .ready ∨ s.status = .blocked ∨ s.status = .faulted →
      step s = .next { s with
        fault := FaultRecord.empty, status := .running, port := { pending := rest, replies := s.port.replies } })

/-- peek_memory(i) answers the word at i and grows L to cover it; refused below 0 and at or beyond `MEM_CAP`
(20_memory.md R67; D18; the pending and reply lists are the model's choice, entry 6). -/
def Obligations.PeekGrowsMemory : Prop :=
  ∀ (s : State) (i : Int) (rest : List Command), s.status ≠ .running → s.port.pending = .peekMemory i :: rest →
    (0 ≤ i → (∀ cap, s.config.memCap = some cap → i < cap) →
      step s = .next { s with
        memLen := max s.memLen (i.toNat + 1),
        port := { pending := rest, replies := s.port.replies ++ [.word (s.mem.read i.toNat)] } }) ∧
    (i < 0 ∨ (∃ cap, s.config.memCap = some cap ∧ (cap : Int) ≤ i) →
      step s = .next { s with port := { pending := rest, replies := s.port.replies ++ [.refused] } })

/-- write_memory(i, v) writes the cell and grows L to cover it; refused below 0, at or beyond `MEM_CAP`, and for a value that
is no word (20_memory.md R68; D18; the pending and reply lists are the model's choice, entry 6). -/
def Obligations.WriteMemoryWritesOneCell : Prop :=
  ∀ (s : State) (i v : Int) (rest : List Command), s.status ≠ .running → s.port.pending = .writeMemory i v :: rest →
    s.mem.wf →
    (0 ≤ i → (∀ cap, s.config.memCap = some cap → i < cap) → inWord s.config v = true →
      step s = .next { s with
        memLen := max s.memLen (i.toNat + 1),
        mem := s.mem.write i.toNat v,
        port := { pending := rest, replies := s.port.replies ++ [.ok] } } ∧
      ∀ a, (s.mem.write i.toNat v).read a = if (a : Int) = i then v else s.mem.read a) ∧
    (i < 0 ∨ (∃ cap, s.config.memCap = some cap ∧ (cap : Int) ≤ i) ∨ inWord s.config v = false →
      step s = .next { s with port := { pending := rest, replies := s.port.replies ++ [.refused] } })

/-- While a run is in progress the host can issue nothing: its pending commands wait (60_exceptions.md R211; D17; that they
wait in a list is entry 6). -/
def Obligations.CommandsWaitWhileRunning : Prop :=
  ∀ s t : State, s.status = .running → step s = .next t →
    t.port.pending = s.port.pending ∧
    (t.status = .running → t.port.replies = s.port.replies)

/-- A core that is not RUNNING and has no command pending waits, keeping all its state (the model's choice, entry 6;
60_exceptions.md R233 for BLOCKED). -/
def Obligations.IdleCoreWaits : Prop :=
  ∀ s : State, s.status ≠ .running → s.port.pending = [] → step s = .next s

/-- A blocked input resumes: with an input instruction at PC and IQ empty, the run returns BLOCKED with nothing changed;
then add_input(v) and run leave the core RUNNING at the same PC with the same memory and v in IQ, so that the very same
instruction is fetched again (70_reset_and_hazards.md R255, 41_io.md R120; D24, D27; that run takes a step of its own and
that the stop reason is appended to the replies are the model's choice, entry 7, and so are the pending and reply lists,
entry 6). -/
def Obligations.BlockedInputResumes : Prop :=
  ∀ (s : State) (m1 : Mode) (v : Int) (rest : List Command), executes s (.input m1) → s.iq = [] →
    s.port.pending = .addInput v :: .run :: rest → inWord s.config v = true → s.config.iqCap ≠ some 0 →
    core.run 3 s = .next { s with
      iq := [v], status := .running, fault := FaultRecord.empty,
      port := { pending := rest, replies := s.port.replies ++ [.stopped .blocked, .ok] } }

/-- A fault recurs: after a step that faults, a new run with nothing changed in between clears the record, fetches again at
the same PC and raises the same fault (60_exceptions.md R206; D11; that run is pending in a list is the model's choice,
entry 6, and that it takes a step of its own and its reply is appended, entry 7). -/
def Obligations.FaultRecursOnRetry : Prop :=
  ∀ (s t : State) (rest : List Command), s.status = .running → step s = .next t → t.status = .faulted →
    s.port.pending = .run :: rest →
    core.run 2 t = .next { t with
      port := { pending := rest, replies := t.port.replies ++ [.stopped (.faulted t.fault)] } }
end

