-- ==== Sys2Proof/Laws/Decode.lean ====
section
/-! SUPPORT. What the decoder answers, shape by shape. -/

namespace Sys2Proof

theorem decodeReadMode_ok {w : Word} {k : Fin 4} {m : Mode} :
    decodeReadMode w k = .ok m ↔ digit w (k + 1) = modeDigit m := by
  unfold decodeReadMode
  split_ifs with h0 h1 h2 <;> cases m <;> simp [modeDigit, *]

theorem decodeReadMode_error {w : Word} {k : Fin 4} {e : DecodeError} :
    decodeReadMode w k = .error e ↔ 3 ≤ digit w (k + 1) ∧ e = .invalidMode k (digit w (k + 1)) := by
  unfold decodeReadMode
  split_ifs with h0 h1 h2
  · simp [h0]
  · simp [h1]
  · simp [h2]
  · simp only [Except.error.injEq]
    exact ⟨fun h => ⟨by omega, h.symm⟩, fun h => h.2.symm⟩

theorem Mode.writable_eq_true {m : Mode} : m.writable = true ↔ m ≠ .immediate := by
  cases m <;> simp [Mode.writable]

theorem decodeWriteMode_ok {w : Word} {k : Fin 4} {m : Mode} :
    decodeWriteMode w k = .ok m ↔ digit w (k + 1) = modeDigit m ∧ m ≠ .immediate := by
  unfold decodeWriteMode
  cases h : decodeReadMode w k with
  | error e =>
    have := decodeReadMode_error.mp h
    cases m <;> simp [modeDigit] <;> omega
  | ok m' =>
    have h' := decodeReadMode_ok.mp h
    rw [h']
    cases m' <;> cases m <;> simp [Mode.writable, modeDigit]

theorem decodeWriteMode_error {w : Word} {k : Fin 4} {e : DecodeError} :
    decodeWriteMode w k = .error e ↔
      (3 ≤ digit w (k + 1) ∧ e = .invalidMode k (digit w (k + 1))) ∨
      (digit w (k + 1) = 1 ∧ e = .immediateWrite k) := by
  unfold decodeWriteMode
  cases h : decodeReadMode w k with
  | error e' =>
    obtain ⟨h1, rfl⟩ := decodeReadMode_error.mp h
    simp only [Except.error.injEq]
    exact ⟨fun h => .inl ⟨h1, h.symm⟩, fun h => by rcases h with h | h; exacts [h.2.symm, by omega]⟩
  | ok m' =>
    have h' := decodeReadMode_ok.mp h
    rw [h']
    cases m' <;> simp [Mode.writable, modeDigit, eq_comm]

theorem decodeABDst_ok {make : Mode → Mode → Mode → Instr} {w : Word} {i : Instr} :
    decodeABDst make w = .ok i ↔ ∃ m1 m2 m3, i = make m1 m2 m3 ∧ digit w 2 = modeDigit m1 ∧ digit w 3 = modeDigit m2 ∧
      digit w 4 = modeDigit m3 ∧ m3 ≠ .immediate := by
  unfold decodeABDst
  constructor
  · intro h
    cases h1 : decodeReadMode w 1 with
    | error e => simp [h1] at h
    | ok m1 =>
      cases h2 : decodeReadMode w 2 with
      | error e => simp [h1, h2] at h
      | ok m2 =>
        cases h3 : decodeWriteMode w 3 with
        | error e => simp [h1, h2, h3] at h
        | ok m3 =>
          simp only [h1, h2, h3, Except.ok.injEq] at h
          exact ⟨m1, m2, m3, h.symm, decodeReadMode_ok.mp h1, decodeReadMode_ok.mp h2, decodeWriteMode_ok.mp h3⟩
  · rintro ⟨m1, m2, m3, rfl, h1, h2, h3⟩
    rw [decodeReadMode_ok.mpr h1, decodeReadMode_ok.mpr h2, decodeWriteMode_ok.mpr h3]

theorem decodeATarget_ok {make : Mode → Mode → Instr} {w : Word} {i : Instr} :
    decodeATarget make w = .ok i ↔ ∃ m1 m2, i = make m1 m2 ∧ digit w 2 = modeDigit m1 ∧ digit w 3 = modeDigit m2 := by
  unfold decodeATarget
  constructor
  · intro h
    cases h1 : decodeReadMode w 1 with
    | error e => simp [h1] at h
    | ok m1 =>
      cases h2 : decodeReadMode w 2 with
      | error e => simp [h1, h2] at h
      | ok m2 =>
        simp only [h1, h2, Except.ok.injEq] at h
        exact ⟨m1, m2, h.symm, decodeReadMode_ok.mp h1, decodeReadMode_ok.mp h2⟩
  · rintro ⟨m1, m2, rfl, h1, h2⟩
    rw [decodeReadMode_ok.mpr h1, decodeReadMode_ok.mpr h2]

theorem decodeA_ok {make : Mode → Instr} {w : Word} {i : Instr} :
    decodeA make w = .ok i ↔ ∃ m1, i = make m1 ∧ digit w 2 = modeDigit m1 := by
  unfold decodeA
  constructor
  · intro h
    cases h1 : decodeReadMode w 1 with
    | error e => simp [h1] at h
    | ok m1 =>
      simp only [h1, Except.ok.injEq] at h
      exact ⟨m1, h.symm, decodeReadMode_ok.mp h1⟩
  · rintro ⟨m1, rfl, h1⟩
    rw [decodeReadMode_ok.mpr h1]

theorem decodeDst_ok {make : Mode → Instr} {w : Word} {i : Instr} :
    decodeDst make w = .ok i ↔ ∃ m1, i = make m1 ∧ digit w 2 = modeDigit m1 ∧ m1 ≠ .immediate := by
  unfold decodeDst
  constructor
  · intro h
    cases h1 : decodeWriteMode w 1 with
    | error e => simp [h1] at h
    | ok m1 =>
      simp only [h1, Except.ok.injEq] at h
      exact ⟨m1, h.symm, decodeWriteMode_ok.mp h1⟩
  · rintro ⟨m1, rfl, h1⟩
    rw [decodeWriteMode_ok.mpr h1]

/-- What a decoded word says: its code is the instruction's, and the instruction is well formed. -/
theorem decode_ok_code {w : Word} {i : Instr} (h : decode w = .ok i) :
    instrCode w = codeOf i ∧ i.wellFormed = true := by
  unfold decode at h
  split_ifs at h with h1 h2 h3 h4 h5 h6 h7 h8 h9 h99
  · obtain ⟨m1, m2, m3, rfl, -, -, -, hm⟩ := decodeABDst_ok.mp h
    exact ⟨h1, Mode.writable_eq_true.mpr hm⟩
  · obtain ⟨m1, m2, m3, rfl, -, -, -, hm⟩ := decodeABDst_ok.mp h
    exact ⟨h2, Mode.writable_eq_true.mpr hm⟩
  · obtain ⟨m1, rfl, -, hm⟩ := decodeDst_ok.mp h
    exact ⟨h3, Mode.writable_eq_true.mpr hm⟩
  · obtain ⟨m1, rfl, -⟩ := decodeA_ok.mp h
    exact ⟨h4, rfl⟩
  · obtain ⟨m1, m2, rfl, -⟩ := decodeATarget_ok.mp h
    exact ⟨h5, rfl⟩
  · obtain ⟨m1, m2, rfl, -⟩ := decodeATarget_ok.mp h
    exact ⟨h6, rfl⟩
  · obtain ⟨m1, m2, m3, rfl, -, -, -, hm⟩ := decodeABDst_ok.mp h
    exact ⟨h7, Mode.writable_eq_true.mpr hm⟩
  · obtain ⟨m1, m2, m3, rfl, -, -, -, hm⟩ := decodeABDst_ok.mp h
    exact ⟨h8, Mode.writable_eq_true.mpr hm⟩
  · obtain ⟨m1, rfl, -⟩ := decodeA_ok.mp h
    exact ⟨h9, rfl⟩
  · cases h
    exact ⟨h99, rfl⟩

end Sys2Proof
end

