-- ==== Sys2Proof/Laws/State.lean ====
section
/-! SUPPORT. What each named update does to each field of State: one lemma per field, true by rfl. -/

namespace Sys2Proof.Machine

/-! ### fault entry (60_exceptions.md R204) -/

@[simp] theorem takeFault_config (f : FaultRecord) (s : State) : (takeFault f s).config = s.config := rfl
@[simp] theorem takeFault_mem (f : FaultRecord) (s : State) : (takeFault f s).mem = s.mem := rfl
@[simp] theorem takeFault_memLen (f : FaultRecord) (s : State) : (takeFault f s).memLen = s.memLen := rfl
@[simp] theorem takeFault_pc (f : FaultRecord) (s : State) : (takeFault f s).pc = s.pc := rfl
@[simp] theorem takeFault_rb (f : FaultRecord) (s : State) : (takeFault f s).rb = s.rb := rfl
@[simp] theorem takeFault_iq (f : FaultRecord) (s : State) : (takeFault f s).iq = s.iq := rfl
@[simp] theorem takeFault_oq (f : FaultRecord) (s : State) : (takeFault f s).oq = s.oq := rfl
@[simp] theorem takeFault_halted (f : FaultRecord) (s : State) : (takeFault f s).halted = s.halted := rfl
@[simp] theorem takeFault_status (f : FaultRecord) (s : State) : (takeFault f s).status = .faulted := rfl
@[simp] theorem takeFault_fault (f : FaultRecord) (s : State) : (takeFault f s).fault = f := rfl
@[simp] theorem takeFault_port (f : FaultRecord) (s : State) : (takeFault f s).port = s.port := rfl

/-! ### outcome BLOCK (41_io.md R120) -/

@[simp] theorem takeBlock_config (s : State) : (takeBlock s).config = s.config := rfl
@[simp] theorem takeBlock_mem (s : State) : (takeBlock s).mem = s.mem := rfl
@[simp] theorem takeBlock_memLen (s : State) : (takeBlock s).memLen = s.memLen := rfl
@[simp] theorem takeBlock_pc (s : State) : (takeBlock s).pc = s.pc := rfl
@[simp] theorem takeBlock_rb (s : State) : (takeBlock s).rb = s.rb := rfl
@[simp] theorem takeBlock_iq (s : State) : (takeBlock s).iq = s.iq := rfl
@[simp] theorem takeBlock_oq (s : State) : (takeBlock s).oq = s.oq := rfl
@[simp] theorem takeBlock_halted (s : State) : (takeBlock s).halted = s.halted := rfl
@[simp] theorem takeBlock_status (s : State) : (takeBlock s).status = .blocked := rfl
@[simp] theorem takeBlock_fault (s : State) : (takeBlock s).fault = s.fault := rfl
@[simp] theorem takeBlock_port (s : State) : (takeBlock s).port = s.port := rfl

/-! ### outcome HALT (45_halt.md R160) -/

@[simp] theorem takeHalt_config (s : State) : (takeHalt s).config = s.config := rfl
@[simp] theorem takeHalt_mem (s : State) : (takeHalt s).mem = s.mem := rfl
@[simp] theorem takeHalt_memLen (s : State) : (takeHalt s).memLen = s.memLen := rfl
@[simp] theorem takeHalt_pc (s : State) : (takeHalt s).pc = s.pc := rfl
@[simp] theorem takeHalt_rb (s : State) : (takeHalt s).rb = s.rb := rfl
@[simp] theorem takeHalt_iq (s : State) : (takeHalt s).iq = s.iq := rfl
@[simp] theorem takeHalt_oq (s : State) : (takeHalt s).oq = s.oq := rfl
@[simp] theorem takeHalt_halted (s : State) : (takeHalt s).halted = true := rfl
@[simp] theorem takeHalt_status (s : State) : (takeHalt s).status = .halted := rfl
@[simp] theorem takeHalt_fault (s : State) : (takeHalt s).fault = s.fault := rfl
@[simp] theorem takeHalt_port (s : State) : (takeHalt s).port = s.port := rfl

/-! ### the start of a run (60_exceptions.md R216) -/

@[simp] theorem enterRun_config (s : State) : (enterRun s).config = s.config := rfl
@[simp] theorem enterRun_mem (s : State) : (enterRun s).mem = s.mem := rfl
@[simp] theorem enterRun_memLen (s : State) : (enterRun s).memLen = s.memLen := rfl
@[simp] theorem enterRun_pc (s : State) : (enterRun s).pc = s.pc := rfl
@[simp] theorem enterRun_rb (s : State) : (enterRun s).rb = s.rb := rfl
@[simp] theorem enterRun_iq (s : State) : (enterRun s).iq = s.iq := rfl
@[simp] theorem enterRun_oq (s : State) : (enterRun s).oq = s.oq := rfl
@[simp] theorem enterRun_halted (s : State) : (enterRun s).halted = s.halted := rfl
@[simp] theorem enterRun_status (s : State) : (enterRun s).status = .running := rfl
@[simp] theorem enterRun_fault (s : State) : (enterRun s).fault = FaultRecord.empty := rfl
@[simp] theorem enterRun_port (s : State) : (enterRun s).port = s.port := rfl

/-! ### reset() (10_state.md R37) -/

@[simp] theorem hostReset_config (s : State) : (hostReset s).config = s.config := rfl
@[simp] theorem hostReset_mem (s : State) : (hostReset s).mem = s.mem := rfl
@[simp] theorem hostReset_memLen (s : State) : (hostReset s).memLen = s.memLen := rfl
@[simp] theorem hostReset_pc (s : State) : (hostReset s).pc = 0 := rfl
@[simp] theorem hostReset_rb (s : State) : (hostReset s).rb = s.rb := rfl
@[simp] theorem hostReset_iq (s : State) : (hostReset s).iq = [] := rfl
@[simp] theorem hostReset_oq (s : State) : (hostReset s).oq = s.oq := rfl
@[simp] theorem hostReset_halted (s : State) : (hostReset s).halted = false := rfl
@[simp] theorem hostReset_status (s : State) : (hostReset s).status = .ready := rfl
@[simp] theorem hostReset_fault (s : State) : (hostReset s).fault = FaultRecord.empty := rfl
@[simp] theorem hostReset_port (s : State) : (hostReset s).port = s.port := rfl

/-! ### the end of a run (60_exceptions.md R216) -/

@[simp] theorem returnFromRun_config (s : State) : (returnFromRun s).config = s.config := rfl
@[simp] theorem returnFromRun_mem (s : State) : (returnFromRun s).mem = s.mem := rfl
@[simp] theorem returnFromRun_memLen (s : State) : (returnFromRun s).memLen = s.memLen := rfl
@[simp] theorem returnFromRun_pc (s : State) : (returnFromRun s).pc = s.pc := rfl
@[simp] theorem returnFromRun_rb (s : State) : (returnFromRun s).rb = s.rb := rfl
@[simp] theorem returnFromRun_iq (s : State) : (returnFromRun s).iq = s.iq := rfl
@[simp] theorem returnFromRun_oq (s : State) : (returnFromRun s).oq = s.oq := rfl
@[simp] theorem returnFromRun_halted (s : State) : (returnFromRun s).halted = s.halted := rfl
@[simp] theorem returnFromRun_status (s : State) : (returnFromRun s).status = s.status := rfl
@[simp] theorem returnFromRun_fault (s : State) : (returnFromRun s).fault = s.fault := rfl
@[simp] theorem returnFromRun_port (s : State) : (returnFromRun s).port = { s.port with replies := s.port.replies ++ (stopReason s).toList.map Reply.stopped } := rfl

/-! ### commit (30_encoding.md R95) -/

@[simp] theorem commit_config (e : Effects) (s : State) : (commit e s).config = s.config := rfl
@[simp] theorem commit_mem (e : Effects) (s : State) : (commit e s).mem = (match e.write with | none => s.mem | some (a, v) => s.mem.write a v) := rfl
@[simp] theorem commit_memLen (e : Effects) (s : State) : (commit e s).memLen = growTo s.memLen e.touched := rfl
@[simp] theorem commit_pc (e : Effects) (s : State) : (commit e s).pc = e.pc := rfl
@[simp] theorem commit_rb (e : Effects) (s : State) : (commit e s).rb = e.rb := rfl
@[simp] theorem commit_iq (e : Effects) (s : State) : (commit e s).iq = (if e.dequeue then s.iq.tail else s.iq) := rfl
@[simp] theorem commit_oq (e : Effects) (s : State) : (commit e s).oq = (match e.enqueue with | none => s.oq | some v => s.oq ++ [v]) := rfl
@[simp] theorem commit_halted (e : Effects) (s : State) : (commit e s).halted = s.halted := rfl
@[simp] theorem commit_status (e : Effects) (s : State) : (commit e s).status = s.status := rfl
@[simp] theorem commit_fault (e : Effects) (s : State) : (commit e s).fault = s.fault := rfl
@[simp] theorem commit_port (e : Effects) (s : State) : (commit e s).port = s.port := rfl

/-! ### an instruction placed at PC (entry 5) -/

@[simp] theorem placeInstruction_config (w : Word) (s : State) : (placeInstruction w s).config = s.config := rfl
@[simp] theorem placeInstruction_mem (w : Word) (s : State) : (placeInstruction w s).mem = (((s.mem.write s.pc w).write (s.pc + 1) 0).write (s.pc + 2) 0).write (s.pc + 3) 0 := rfl
@[simp] theorem placeInstruction_memLen (w : Word) (s : State) : (placeInstruction w s).memLen = max s.memLen (s.pc + 4) := rfl
@[simp] theorem placeInstruction_pc (w : Word) (s : State) : (placeInstruction w s).pc = s.pc := rfl
@[simp] theorem placeInstruction_rb (w : Word) (s : State) : (placeInstruction w s).rb = s.rb := rfl
@[simp] theorem placeInstruction_iq (w : Word) (s : State) : (placeInstruction w s).iq = s.iq := rfl
@[simp] theorem placeInstruction_oq (w : Word) (s : State) : (placeInstruction w s).oq = s.oq := rfl
@[simp] theorem placeInstruction_halted (w : Word) (s : State) : (placeInstruction w s).halted = false := rfl
@[simp] theorem placeInstruction_status (w : Word) (s : State) : (placeInstruction w s).status = .running := rfl
@[simp] theorem placeInstruction_fault (w : Word) (s : State) : (placeInstruction w s).fault = FaultRecord.empty := rfl
@[simp] theorem placeInstruction_port (w : Word) (s : State) : (placeInstruction w s).port = s.port := rfl

/-! ### The default effects (30_encoding.md R94) -/

@[simp] theorem advance_touched (n : Nat) (touched : List Nat) (s : State) : (advance n touched s).touched = s.pc :: touched := rfl
@[simp] theorem advance_write (n : Nat) (touched : List Nat) (s : State) : (advance n touched s).write = none := rfl
@[simp] theorem advance_pc (n : Nat) (touched : List Nat) (s : State) : (advance n touched s).pc = s.pc + 1 + n := rfl
@[simp] theorem advance_rb (n : Nat) (touched : List Nat) (s : State) : (advance n touched s).rb = s.rb := rfl
@[simp] theorem advance_dequeue (n : Nat) (touched : List Nat) (s : State) : (advance n touched s).dequeue = false := rfl
@[simp] theorem advance_enqueue (n : Nat) (touched : List Nat) (s : State) : (advance n touched s).enqueue = none := rfl

/-! ### Stages -/

@[simp] theorem orFault_ok {α : Type} (a : α) (s : State) (k : α → Host.Outcome State Fault Refusal) :
    orFault (.ok a) s k = k a := rfl

@[simp] theorem orFault_error {α : Type} (f : FaultRecord) (s : State) (k : α → Host.Outcome State Fault Refusal) :
    orFault (.error f) s k = .next (takeFault f s) := rfl

end Sys2Proof.Machine
end

