-- ==== Sys2Proof/Laws/Memory.lean ====
section
/-! SUPPORT. Memory: reading after writing, the canonical form, and the growth of L. -/

namespace Sys2Proof.Machine

theorem Memory.read_eq_zero {m : Memory} {a : Nat} (h : ∀ c ∈ m, c.1 ≠ a) : m.read a = 0 := by
  induction m with
  | nil => rfl
  | cons c rest ih =>
    have hc : ¬a = c.1 := fun e => h c (by simp) e.symm
    simp only [Memory.read, hc, if_false]
    exact ih fun d hd => h d (by simp [hd])

/-- A cell that does not read 0 is listed. -/
theorem Memory.listed_of_read_ne_zero {m : Memory} {a : Nat} (h : m.read a ≠ 0) : (a, m.read a) ∈ m := by
  induction m with
  | nil => exact absurd rfl h
  | cons c rest ih =>
    obtain ⟨b, w⟩ := c
    by_cases e : a = b
    · simp [Memory.read, e]
    · simp only [Memory.read, e, if_false] at h ⊢
      exact List.mem_cons_of_mem _ (ih h)

/-- Every word of memory has a property that 0 and all listed words have. -/
theorem Memory.read_property {m : Memory} {p : Word → Prop} (hz : p 0) (h : ∀ c ∈ m, p c.2) (a : Nat) :
    p (m.read a) := by
  by_cases e : m.read a = 0
  · rw [e]; exact hz
  · exact h _ (Memory.listed_of_read_ne_zero e)

/-- A write leaves every other cell alone, in any list of cells. -/
theorem Memory.read_write_other (m : Memory) {a b : Nat} (v : Word) (h : b ≠ a) :
    (m.write a v).read b = m.read b := by
  induction m with
  | nil => by_cases hv : v = 0 <;> simp [Memory.write, Memory.read, hv, h]
  | cons c rest ih =>
    obtain ⟨x, w⟩ := c
    simp only [Memory.write]
    split_ifs with h1 h2 h3 h4
    · rfl
    · simp [Memory.read, h]
    · subst h3; simp [Memory.read, h]
    · subst h3; simp [Memory.read, h]
    · simp [Memory.read, ih]

/-- A read after a write to the same cell gives the word written. -/
theorem Memory.read_write_same {m : Memory} (wf : m.wf) (a : Nat) (v : Word) : (m.write a v).read a = v := by
  obtain ⟨hs, hz⟩ := wf
  induction m with
  | nil => by_cases hv : v = 0 <;> simp [Memory.write, Memory.read, hv]
  | cons c rest ih =>
    obtain ⟨x, w⟩ := c
    have hs' := List.pairwise_cons.mp hs
    simp only [Memory.write]
    split_ifs with h1 h2 h3 h4
    · rw [h2]
      refine Memory.read_eq_zero fun d hd => ?_
      rcases List.mem_cons.mp hd with e | e
      · subst e; simp; omega
      · have := hs'.1 d e; simp at this; omega
    · simp [Memory.read]
    · rw [h4]
      refine Memory.read_eq_zero fun d hd => ?_
      have := hs'.1 d hd; simp at this; omega
    · simp [Memory.read]
    · have hne : ¬a = x := h3
      simp only [Memory.read, hne, if_false]
      exact ih hs'.2 fun d hd => hz d (by simp [hd])

theorem Memory.read_write {m : Memory} (wf : m.wf) (a b : Nat) (v : Word) :
    (m.write a v).read b = if b = a then v else m.read b := by
  split_ifs with h
  · rw [h]; exact Memory.read_write_same wf a v
  · exact Memory.read_write_other m v h

/-- A write lists no cell but the one written and those already listed. -/
theorem Memory.mem_write {m : Memory} {a : Nat} {v : Word} {c : Nat × Word} (h : c ∈ m.write a v) :
    (c = (a, v) ∧ v ≠ 0) ∨ c ∈ m := by
  induction m with
  | nil =>
    by_cases hv : v = 0
    · simp [Memory.write, hv] at h
    · simp [Memory.write, hv] at h; exact .inl ⟨h, hv⟩
  | cons d rest ih =>
    obtain ⟨x, w⟩ := d
    simp only [Memory.write] at h
    split_ifs at h with h1 h2 h3 h4
    · exact .inr h
    · rcases List.mem_cons.mp h with e | e
      · exact .inl ⟨e, h2⟩
      · exact .inr e
    · exact .inr (List.mem_cons_of_mem _ h)
    · rcases List.mem_cons.mp h with e | e
      · exact .inl ⟨e, h4⟩
      · exact .inr (List.mem_cons_of_mem _ e)
    · rcases List.mem_cons.mp h with e | e
      · exact .inr (by simp [e])
      · exact (ih e).imp id (List.mem_cons_of_mem _)

/-- A write keeps the canonical form. -/
theorem Memory.write_wf {m : Memory} (wf : m.wf) (a : Nat) (v : Word) : (m.write a v).wf := by
  refine ⟨?_, fun c hc => ?_⟩
  · obtain ⟨hs, hz⟩ := wf
    induction m with
    | nil => by_cases hv : v = 0 <;> simp [Memory.write, hv]
    | cons d rest ih =>
      obtain ⟨x, w⟩ := d
      have hs' := List.pairwise_cons.mp hs
      simp only [Memory.write]
      split_ifs with h1 h2 h3 h4
      · exact hs
      · refine List.pairwise_cons.mpr ⟨fun c hc => ?_, hs⟩
        rcases List.mem_cons.mp hc with e | e
        · subst e; exact h1
        · exact lt_trans h1 (hs'.1 c e)
      · exact hs'.2
      · subst h3; exact List.pairwise_cons.mpr hs'
      · refine List.pairwise_cons.mpr ⟨fun c hc => ?_, ih hs'.2 fun d hd => hz d (by simp [hd])⟩
        rcases Memory.mem_write hc with ⟨e, _⟩ | e
        · subst e; simp; omega
        · exact hs'.1 c e
  · rcases Memory.mem_write hc with ⟨e, hv⟩ | e
    · subst e; exact hv
    · exact wf.2 c e

/-! ### A program laid out in memory (10_state.md R36) -/

theorem Memory.mem_ofProgram {base : Nat} {program : List Word} {c : Nat × Word}
    (h : c ∈ Memory.ofProgram base program) :
    base ≤ c.1 ∧ c.1 < base + program.length ∧ c.2 ∈ program ∧ c.2 ≠ 0 := by
  induction program generalizing base with
  | nil => simp [Memory.ofProgram] at h
  | cons v rest ih =>
    simp only [Memory.ofProgram] at h
    split_ifs at h with hv
    · obtain ⟨h1, h2, h3, h4⟩ := ih h
      exact ⟨by omega, by simp; omega, by simp [h3], h4⟩
    · rcases List.mem_cons.mp h with e | e
      · subst e; exact ⟨le_refl _, by simp, by simp, hv⟩
      · obtain ⟨h1, h2, h3, h4⟩ := ih e
        exact ⟨by omega, by simp; omega, by simp [h3], h4⟩

theorem Memory.ofProgram_wf (base : Nat) (program : List Word) : (Memory.ofProgram base program).wf := by
  refine ⟨?_, fun c hc => (Memory.mem_ofProgram hc).2.2.2⟩
  induction program generalizing base with
  | nil => simp [Memory.ofProgram]
  | cons v rest ih =>
    simp only [Memory.ofProgram]
    split_ifs with hv
    · exact ih _
    · exact List.pairwise_cons.mpr ⟨fun c hc => by have := (Memory.mem_ofProgram hc).1; simp; omega, ih _⟩

theorem Memory.read_ofProgram (base : Nat) (program : List Word) (k : Nat) :
    (Memory.ofProgram base program).read (base + k) = program.getD k 0 := by
  induction program generalizing base k with
  | nil => rfl
  | cons v rest ih =>
    simp only [Memory.ofProgram]
    cases k with
    | zero =>
      split_ifs with hv
      · rw [Memory.read_eq_zero fun c hc => by have := (Memory.mem_ofProgram hc).1; omega]
        simp [hv]
      · simp [Memory.read]
    | succ k =>
      have hk : base + (k + 1) = base + 1 + k := by omega
      split_ifs with hv
      · rw [hk, ih]; simp
      · rw [Memory.read, if_neg (by omega), hk, ih]; simp

/-! ### Growth of L (20_memory.md R54) -/

theorem le_growTo (len : Nat) (touched : List Nat) : len ≤ growTo len touched := by
  induction touched generalizing len with
  | nil => exact le_refl _
  | cons a rest ih => exact le_trans (le_max_left _ _) (ih _)

theorem lt_growTo {len a : Nat} {touched : List Nat} (h : a ∈ touched) : a < growTo len touched := by
  induction touched generalizing len with
  | nil => simp at h
  | cons b rest ih =>
    rcases List.mem_cons.mp h with e | e
    · subst e
      exact lt_of_lt_of_le (Nat.lt_of_succ_le (le_max_right _ _)) (le_growTo _ _)
    · exact ih e

theorem growTo_le {len n : Nat} {touched : List Nat} (hl : len ≤ n) (ht : ∀ a ∈ touched, a < n) :
    growTo len touched ≤ n := by
  induction touched generalizing len with
  | nil => exact hl
  | cons b rest ih =>
    exact ih (max_le hl (ht b (by simp))) fun a ha => ht a (by simp [ha])

theorem reset_mem_wf : State.reset.mem.wf := by decide

end Sys2Proof.Machine
end

