-- ==== Sys2Proof/Laws/Operands.lean ====
section
/-! SUPPORT. What operand resolution and the shared shapes of the instructions answer, in the terms of Safety.lean. Later
proofs cite these and do not unfold the operations. -/

namespace Sys2Proof.Machine

/-- `check_address` for a parameter raises exactly `addressProblem`. -/
theorem checkAddress_param {k : Fin 4} (hk : k ≠ 0) (a : Int) (s : State) :
    checkAddress k a s = match addressProblem k a s with
      | some f => .error f
      | none => .ok a.toNat := by
  unfold checkAddress addressProblem beyondCap addressFault
  by_cases h : a < 0
  · simp [h, hk, faultFetched, recordAt, currentWord]
  · cases hc : s.config.memCap with
    | none => simp [h]
    | some cap => by_cases h2 : (cap : Int) ≤ a <;> simp [h, h2, hk, faultFetched, recordAt, currentWord]

/-- A read operand resolves to its value, or raises its first problem (30_encoding.md R77, R93). -/
theorem readOperand_eq {k : Fin 4} (hk : k ≠ 0) (m : Mode) (s : State) :
    readOperand k m s = match operandProblem k m s with
      | some f => .error f
      | none => .ok { value := operandValue k m s, touched := operandTouched k m s } := by
  unfold readOperand operandProblem operandValue operandTouched
  rw [checkAddress_param hk]
  cases addressProblem k ((s.pc + k : Nat) : Int) s with
  | some f => rfl
  | none =>
    cases m with
    | immediate => rfl
    | position =>
      simp only [effectiveAddress, operandAddress, checkAddress_param hk, Int.toNat_natCast, Option.none_or]
      cases addressProblem k (s.mem.read (s.pc + k)) s <;> rfl
    | relative =>
      simp only [effectiveAddress, operandAddress, checkAddress_param hk, Int.toNat_natCast, Option.none_or]
      cases addressProblem k (s.rb + s.mem.read (s.pc + k)) s <;> rfl

/-- A write target resolves to its address, or raises its first problem (30_encoding.md R78, R93). -/
theorem writeTarget_eq {k : Fin 4} (hk : k ≠ 0) {m : Mode} (hm : m ≠ .immediate) (s : State) :
    writeTarget k m s = match operandProblem k m s with
      | some f => .error f
      | none => .ok { addr := targetAddress k m s, touched := operandTouched k m s } := by
  unfold writeTarget operandProblem targetAddress operandTouched
  rw [checkAddress_param hk]
  cases addressProblem k ((s.pc + k : Nat) : Int) s with
  | some f => rfl
  | none =>
    cases m with
    | immediate => exact absurd rfl hm
    | position =>
      simp only [effectiveAddress, operandAddress, checkAddress_param hk, Int.toNat_natCast, Option.none_or]
      cases addressProblem k (s.mem.read (s.pc + k)) s <;> rfl
    | relative =>
      simp only [effectiveAddress, operandAddress, checkAddress_param hk, Int.toNat_natCast, Option.none_or]
      cases addressProblem k (s.rb + s.mem.read (s.pc + k)) s <;> rfl

/-- A write target with an immediate mode always raises a fault. -/
theorem writeTarget_immediate (k : Fin 4) (s : State) : ∃ f, writeTarget k .immediate s = .error f := by
  unfold writeTarget
  cases checkAddress k ((s.pc + k : Nat) : Int) s with
  | error f => exact ⟨f, rfl⟩
  | ok pa => exact ⟨_, rfl⟩

theorem withRead_eq {k : Fin 4} (hk : k ≠ 0) (m : Mode) (s : State)
    (next : Operand → Host.Outcome State Fault Refusal) :
    withRead k m s next = match operandProblem k m s with
      | some f => .next (takeFault f s)
      | none => next { value := operandValue k m s, touched := operandTouched k m s } := by
  rw [withRead, readOperand_eq hk]
  cases operandProblem k m s <;> rfl

theorem withTarget_eq {k : Fin 4} (hk : k ≠ 0) {m : Mode} (hm : m ≠ .immediate) (s : State)
    (next : Target → Host.Outcome State Fault Refusal) :
    withTarget k m s next = match operandProblem k m s with
      | some f => .next (takeFault f s)
      | none => next { addr := targetAddress k m s, touched := operandTouched k m s } := by
  rw [withTarget, writeTarget_eq hk hm]
  cases operandProblem k m s <;> rfl

/-- The commit of a three-parameter instruction that stores `r`. -/
def storeEffects (m1 m2 m3 : Mode) (r : Word) (s : State) : Effects :=
  { touched := touched3 m1 m2 m3 s, write := some (targetAddress 3 m3 s, r), pc := s.pc + 4, rb := s.rb,
    dequeue := false, enqueue := none }

/-- Everything the three-parameter shape can answer (30_encoding.md R93 to R95). -/
theorem storeBinary_eq (f : Word → Word → Except FaultRecord Word) (m1 m2 : Mode) {m3 : Mode} (hm : m3 ≠ .immediate)
    (s : State) :
    storeBinary f m1 m2 m3 s = match problem3 m1 m2 m3 s with
      | some p => .next (takeFault p s)
      | none => orFault (f (operandValue 1 m1 s) (operandValue 2 m2 s)) s fun r =>
          .next (commit (storeEffects m1 m2 m3 r s) s) := by
  rw [storeBinary, withRead_eq (by decide), problem3, problem2]
  cases operandProblem 1 m1 s with
  | some p => rfl
  | none =>
    simp only [Option.none_or]
    rw [withRead_eq (by decide)]
    cases operandProblem 2 m2 s with
    | some p => rfl
    | none =>
      simp only [Option.none_or]
      rw [withTarget_eq (by decide) hm]
      cases operandProblem 3 m3 s <;> rfl

/-- Everything the jump shape can answer (42_jumps.md R130, R131, R133). -/
theorem jumpWhen_eq (taken : Word → Bool) (m1 m2 : Mode) (s : State) :
    jumpWhen taken m1 m2 s = match problem2 m1 m2 s with
      | some p => .next (takeFault p s)
      | none =>
        if taken (operandValue 1 m1 s) then
          if operandValue 2 m2 s < 0 then
            .next (takeFault (faultFetched s .negativeJumpTarget 2 (operandValue 2 m2 s)) s)
          else .next (commit { advance 2 (operandTouched 1 m1 s ++ operandTouched 2 m2 s) s with
            pc := (operandValue 2 m2 s).toNat } s)
        else .next (commit (advance 2 (operandTouched 1 m1 s ++ operandTouched 2 m2 s) s) s) := by
  rw [jumpWhen, withRead_eq (by decide), problem2]
  cases operandProblem 1 m1 s with
  | some p => rfl
  | none =>
    simp only [Option.none_or]
    rw [withRead_eq (by decide)]

/-! ### What an operand touches and when it meets a problem -/

/-- An operand that meets no problem touches addresses inside the memory only. -/
theorem operandTouched_fits {k : Fin 4} {m : Mode} {s : State} (h : operandProblem k m s = none) :
    ∀ a ∈ operandTouched k m s, beyondCap s.config a = false := by
  have fits : ∀ b : Int, addressProblem k b s = none → 0 ≤ b ∧ beyondCap s.config b = false := by
    intro b hb
    unfold addressProblem at hb
    unfold beyondCap
    split_ifs at hb with h1
    cases hc : s.config.memCap with
    | none => exact ⟨by omega, rfl⟩
    | some cap =>
      simp only [hc] at hb
      split_ifs at hb with h2
      exact ⟨by omega, by simp only [decide_eq_false_iff_not]; omega⟩
  unfold operandProblem at h
  rw [Option.or_eq_none_iff] at h
  obtain ⟨h1, h2⟩ := h
  intro a ha
  unfold operandTouched at ha
  cases hm : operandAddress k m s with
  | none =>
    simp only [hm, List.mem_singleton] at ha
    rw [ha]; exact (fits _ h1).2
  | some b =>
    simp only [hm] at h2 ha
    rcases List.mem_cons.mp ha with e | e
    · rw [e]; exact (fits _ h1).2
    · rw [List.mem_singleton] at e
      rw [e, Int.toNat_of_nonneg (fits _ h2).1]; exact (fits _ h2).2

/-- The record of an address fault: which cause, and that its value is the address. -/
theorem addressProblem_record {k : Fin 4} {a : Int} {s : State} {f : FaultRecord} (h : addressProblem k a s = some f) :
    (f = recordAt s .negativeAddress k a ∧ a < 0) ∨
    ∃ cap, f = recordAt s .memoryCapacity k a ∧ s.config.memCap = some cap ∧ (cap : Int) ≤ a := by
  unfold addressProblem at h
  split_ifs at h with h1
  · exact .inl ⟨(Option.some.inj h).symm, h1⟩
  · cases hc : s.config.memCap with
    | none => simp [hc] at h
    | some cap =>
      simp only [hc] at h
      split_ifs at h with h2
      exact .inr ⟨cap, (Option.some.inj h).symm, rfl, h2⟩

/-- The record of an operand's problem is that of the instruction at PC, and its value is the address of the operand or,
beyond the capacity, perhaps that of the parameter word. -/
theorem operandProblem_record {k : Fin 4} {m : Mode} {s : State} {f : FaultRecord}
    (h : operandProblem k m s = some f) :
    (∃ a, f = recordAt s .negativeAddress k a ∧ a < 0 ∧ operandAddress k m s = some a) ∨
    ∃ a cap, f = recordAt s .memoryCapacity k a ∧ s.config.memCap = some cap ∧ (cap : Int) ≤ a ∧
      (a = (s.pc + k : Nat) ∨ operandAddress k m s = some a) := by
  unfold operandProblem at h
  rw [Option.or_eq_some_iff] at h
  rcases h with h | ⟨-, h⟩
  · rcases addressProblem_record h with ⟨-, hn⟩ | ⟨cap, hf, hc, ha⟩
    · omega
    · exact .inr ⟨_, cap, hf, hc, ha, .inl rfl⟩
  · cases hm : operandAddress k m s with
    | none => simp [hm] at h
    | some b =>
      simp only [hm] at h
      rcases addressProblem_record h with ⟨hf, hn⟩ | ⟨cap, hf, hc, ha⟩
      · exact .inl ⟨b, hf, hn, rfl⟩
      · exact .inr ⟨b, cap, hf, hc, ha, .inr rfl⟩

/-- The target of a write target that meets no problem is among the addresses it touches. -/
theorem targetAddress_touched {k : Fin 4} {m : Mode} (hm : m ≠ .immediate) (s : State) :
    targetAddress k m s ∈ operandTouched k m s := by
  cases m with
  | immediate => exact absurd rfl hm
  | position => simp [targetAddress, operandTouched, operandAddress]
  | relative => simp [targetAddress, operandTouched, operandAddress]

end Sys2Proof.Machine
end

