-- ==== Sys2Proof/Laws/Exec.lean ====
section
/-! SUPPORT. What `exec` can answer: one equation per shape, and one inversion lemma for all instructions, from which the
whole-machine rules follow without unfolding a meaning again. -/

namespace Sys2Proof.Machine

theorem checkWord_ok {r : Int} {s : State} (h : inWord s.config r = true) : checkWord r s = .ok r := by
  simp [checkWord, h]

theorem checkWord_error {r : Int} {s : State} (h : inWord s.config r = false) :
    checkWord r s = .error (recordAt s .wordOverflow 0 r) := by
  simp [checkWord, h, faultFetched, recordAt, currentWord]

theorem faultFetched_eq_recordAt (s : State) (c : Cause) (k : Fin 4) (v : Int) :
    faultFetched s c k v = recordAt s c k v := rfl

theorem execInput_eq {m1 : Mode} (hm : m1 ≠ .immediate) (s : State) :
    execInput m1 s = match s.iq with
      | [] => .next (takeBlock s)
      | x :: _ => match operandProblem 1 m1 s with
        | some p => .next (takeFault p s)
        | none => .next (commit { advance 1 (operandTouched 1 m1 s) s with
            write := some (targetAddress 1 m1 s, x), dequeue := true } s) := by
  unfold execInput
  cases s.iq with
  | nil => rfl
  | cons x rest => simp only; rw [withTarget_eq (by decide) hm] <;> rfl

theorem execOutput_eq (m1 : Mode) (s : State) :
    execOutput m1 s = match operandProblem 1 m1 s with
      | some p => .next (takeFault p s)
      | none =>
        if queueFull s.config.oqCap s.oq.length then .next (takeFault (recordAt s .outputQueueFull 0 0) s)
        else .next (commit { advance 1 (operandTouched 1 m1 s) s with enqueue := some (operandValue 1 m1 s) } s) := by
  rw [execOutput, withRead_eq (by decide)]
  all_goals (cases operandProblem 1 m1 s <;> rfl)

theorem execAdjustBase_eq (m1 : Mode) (s : State) :
    execAdjustBase m1 s = match operandProblem 1 m1 s with
      | some p => .next (takeFault p s)
      | none => orFault (checkWord (s.rb + operandValue 1 m1 s) s) s fun r =>
          .next (commit { advance 1 (operandTouched 1 m1 s) s with rb := r } s) := by
  rw [execAdjustBase, withRead_eq (by decide)]
  all_goals (cases operandProblem 1 m1 s <;> rfl)

/-- A queue is full exactly when its capacity is its length. -/
theorem queueFull_eq (cap : Option Nat) (len : Nat) : queueFull cap len = decide (cap = some len) := by
  cases cap with
  | none => rfl
  | some n => simp [queueFull, eq_comm]

/-! ### The inversion lemma -/

/-- The word an instruction may store: the checked result of add or mul, a comparison's result, or the front of IQ. -/
def storedWord (i : Instr) (s : State) (v : Word) : Prop :=
  inWord s.config v = true ∨ v = 0 ∨ v = 1 ∨ ((∃ m1, i = .input m1) ∧ s.iq.head? = some v)

/-- What a committed instruction has staged. -/
structure Staged (i : Instr) (s : State) (e : Effects) : Prop where
  touchesPc : s.pc ∈ e.touched
  touchedFits : ∀ a ∈ e.touched, a = s.pc ∨ beyondCap s.config a = false
  writes : ∀ a v, e.write = some (a, v) →
    stores i = true ∧ a ∈ e.touched ∧ storedWord i s v ∧ storeAddress i s = some a
  storesOnce : stores i = true → ∃ a v, e.write = some (a, v)
  movesPc : e.pc = s.pc + 1 + (modesOf i).length ∨
    ∃ m1 m2, (i = .jumpIfTrue m1 m2 ∨ i = .jumpIfFalse m1 m2) ∧ 0 ≤ operandValue 2 m2 s ∧
      (e.pc : Int) = operandValue 2 m2 s
  movesBase : e.rb = s.rb ∨ ((∃ m1, i = .adjustBase m1) ∧ inWord s.config e.rb = true)
  dequeues : (e.dequeue = true ∧ (∃ m1, i = .input m1) ∧ s.iq ≠ []) ∨
    (e.dequeue = false ∧ ∀ m1, i ≠ .input m1)
  enqueues : ∀ v, e.enqueue = some v →
    ∃ m1, i = .output m1 ∧ s.config.oqCap ≠ some s.oq.length ∧ v = operandValue 1 m1 s

/-- What a fault record raised by `exec` says. -/
structure Raised (i : Instr) (s : State) (f : FaultRecord) : Prop where
  ofInstruction : ∃ c k v, f = recordAt s c k v ∧ c ≠ .noFault ∧ c ≠ .endOfProgram ∧ c ≠ .invalidOpcode ∧
    c ≠ .invalidMode
  immediateWrite : f.cause = .immediateWrite → i.wellFormed = false
  negativeAddress : f.cause = .negativeAddress → f.value < 0 ∧
    ∃ m, paramMode i f.param = some m ∧ operandAddress f.param m s = some f.value
  memoryCapacity : f.cause = .memoryCapacity → (∃ cap, s.config.memCap = some cap ∧ (cap : Int) ≤ f.value) ∧
    ∃ m, paramMode i f.param = some m ∧
      (f.value = (s.pc + f.param : Nat) ∨ operandAddress f.param m s = some f.value)
  negativeJumpTarget : f.cause = .negativeJumpTarget → f.value < 0 ∧ f.param = 2 ∧
    ∃ m1 m2, f.value = operandValue 2 m2 s ∧
      ((i = .jumpIfTrue m1 m2 ∧ operandValue 1 m1 s ≠ 0) ∨ (i = .jumpIfFalse m1 m2 ∧ operandValue 1 m1 s = 0))
  wordOverflow : f.cause = .wordOverflow → f.param = 0 ∧ inWord s.config f.value = false ∧ exactResult i s f.value
  outputQueueFull : f.cause = .outputQueueFull → f.param = 0 ∧ f.value = 0 ∧ s.config.oqCap = some s.oq.length ∧ ∃ m1, i = .output m1

theorem raised_of_operand {i : Instr} {s : State} {k : Fin 4} {m : Mode} {f : FaultRecord}
    (hk : paramMode i k = some m) (h : operandProblem k m s = some f) : Raised i s f := by
  rcases operandProblem_record h with ⟨a, rfl, ha, hm⟩ | ⟨a, cap, rfl, hc, ha, hm⟩
  · refine ⟨⟨_, _, _, rfl, by simp⟩, ?_, fun _ => ⟨ha, m, hk, hm⟩, ?_, ?_, ?_, ?_⟩ <;> simp [recordAt]
  · refine ⟨⟨_, _, _, rfl, by simp⟩, ?_, ?_, fun _ => ⟨⟨cap, hc, ha⟩, m, hk, hm⟩, ?_, ?_, ?_⟩ <;> simp [recordAt]

theorem raised_of_problem2 {i : Instr} {s : State} {m1 m2 : Mode} {f : FaultRecord} (h1 : paramMode i 1 = some m1)
    (h2 : paramMode i 2 = some m2) (h : problem2 m1 m2 s = some f) : Raised i s f := by
  rw [problem2, Option.or_eq_some_iff] at h
  rcases h with h | ⟨-, h⟩
  · exact raised_of_operand h1 h
  · exact raised_of_operand h2 h

theorem raised_of_problem3 {i : Instr} {s : State} {m1 m2 m3 : Mode} {f : FaultRecord} (h1 : paramMode i 1 = some m1)
    (h2 : paramMode i 2 = some m2) (h3 : paramMode i 3 = some m3) (h : problem3 m1 m2 m3 s = some f) :
    Raised i s f := by
  rw [problem3, Option.or_eq_some_iff] at h
  rcases h with h | ⟨-, h⟩
  · exact raised_of_problem2 h1 h2 h
  · exact raised_of_operand h3 h

theorem raised_overflow {i : Instr} {s : State} {r : Int} (h : inWord s.config r = false)
    (hi : exactResult i s r) :
    Raised i s (recordAt s .wordOverflow 0 r) := by
  refine ⟨⟨_, _, _, rfl, by simp⟩, ?_, ?_, ?_, ?_, fun _ => ⟨rfl, h, hi⟩, ?_⟩ <;> simp [recordAt]

theorem touched1_fits {s : State} {m1 : Mode} (h : operandProblem 1 m1 s = none) :
    ∀ a ∈ touched1 m1 s, a = s.pc ∨ beyondCap s.config a = false := by
  intro a ha
  rcases List.mem_cons.mp ha with e | e
  · exact .inl e
  · exact .inr (operandTouched_fits h a e)

theorem touched2_fits {s : State} {m1 m2 : Mode} (h : problem2 m1 m2 s = none) :
    ∀ a ∈ touched2 m1 m2 s, a = s.pc ∨ beyondCap s.config a = false := by
  rw [problem2, Option.or_eq_none_iff] at h
  intro a ha
  rcases List.mem_append.mp ha with e | e
  · exact touched1_fits h.1 a e
  · exact .inr (operandTouched_fits h.2 a e)

theorem touched3_fits {s : State} {m1 m2 m3 : Mode} (h : problem3 m1 m2 m3 s = none) :
    ∀ a ∈ touched3 m1 m2 m3 s, a = s.pc ∨ beyondCap s.config a = false := by
  rw [problem3, Option.or_eq_none_iff] at h
  intro a ha
  rcases List.mem_append.mp ha with e | e
  · exact touched2_fits h.1 a e
  · exact .inr (operandTouched_fits h.2 a e)

/-- The inversion of a storing three-parameter instruction. -/
theorem storeBinary_cases {i : Instr} {f : Word → Word → Except FaultRecord Word} {m1 m2 m3 : Mode} {s t : State}
    (hi : stores i = true) (ha : storeAddress i s = some (targetAddress 3 m3 s)) (hn : ∀ m, i ≠ .input m)
    (hl : modesOf i = [m1, m2, m3]) (hw : i.wellFormed = m3.writable)
    (hf : (∃ r, f (operandValue 1 m1 s) (operandValue 2 m2 s) = .ok r ∧ storedWord i s r) ∨
      ∃ p, f (operandValue 1 m1 s) (operandValue 2 m2 s) = .error p ∧ Raised i s p)
    (h : storeBinary f m1 m2 m3 s = .next t) :
    (∃ p, t = takeFault p s ∧ Raised i s p) ∨ ∃ e, t = commit e s ∧ Staged i s e := by
  have h1 : paramMode i 1 = some m1 := by simp [paramMode, hl]
  have h2 : paramMode i 2 = some m2 := by simp [paramMode, hl]
  have h3 : paramMode i 3 = some m3 := by simp [paramMode, hl]
  by_cases hm : m3 = .immediate
  · subst hm
    have imm : ∃ p, t = takeFault p s ∧ Raised i s p := by
      unfold storeBinary at h
      rw [withRead_eq (by decide)] at h
      cases p1 : operandProblem 1 m1 s with
      | some p => rw [p1] at h; cases h; exact ⟨p, rfl, raised_of_operand h1 p1⟩
      | none =>
        rw [p1] at h
        simp only at h
        rw [withRead_eq (by decide)] at h
        cases p2 : operandProblem 2 m2 s with
        | some p => rw [p2] at h; cases h; exact ⟨p, rfl, raised_of_operand h2 p2⟩
        | none =>
          rw [p2] at h
          simp only [withTarget, writeTarget, checkAddress_param (show (3 : Fin 4) ≠ 0 by decide)] at h
          cases p3 : addressProblem 3 ((s.pc + (3 : Fin 4) : Nat) : Int) s with
          | some p =>
            rw [p3] at h; cases h
            exact ⟨p, rfl, raised_of_operand h3 (by rw [operandProblem, p3]; rfl)⟩
          | none =>
            rw [p3] at h
            simp only [effectiveAddress, orFault_error, Host.Outcome.next.injEq] at h
            refine ⟨_, h.symm, ⟨⟨_, _, _, rfl, by simp⟩, fun _ => by rw [hw]; rfl, ?_, ?_, ?_, ?_, ?_⟩⟩ <;>
              simp [faultFetched]
    exact .inl imm
  · rw [storeBinary_eq f m1 m2 hm] at h
    cases hp : problem3 m1 m2 m3 s with
    | some p => rw [hp] at h; cases h; exact .inl ⟨p, rfl, raised_of_problem3 h1 h2 h3 hp⟩
    | none =>
      rw [hp] at h
      simp only at h
      rcases hf with ⟨r, hr, hs⟩ | ⟨p, hr, hs⟩
      · rw [hr] at h
        cases h
        refine .inr ⟨_, rfl, ⟨by simp [storeEffects, touched3, touched2, touched1], touched3_fits hp, ?_, ?_,
          .inl (by simp [storeEffects, hl]), .inl rfl, .inr ⟨rfl, hn⟩, fun v hv => by cases hv⟩⟩
        · intro a v hv
          cases hv
          exact ⟨hi, List.mem_append_right _ (targetAddress_touched hm s), hs, ha⟩
        · exact fun _ => ⟨_, _, rfl⟩
      · rw [hr] at h
        cases h
        exact .inl ⟨p, rfl, hs⟩

/-- The inversion of a conditional jump. -/
theorem jumpWhen_cases {i : Instr} {taken : Word → Bool} {m1 m2 : Mode} {s t : State}
    (hi : i = .jumpIfTrue m1 m2 ∨ i = .jumpIfFalse m1 m2)
    (htrue : taken (operandValue 1 m1 s) = true →
      (i = .jumpIfTrue m1 m2 ∧ operandValue 1 m1 s ≠ 0) ∨ (i = .jumpIfFalse m1 m2 ∧ operandValue 1 m1 s = 0))
    (h : jumpWhen taken m1 m2 s = .next t) :
    (∃ p, t = takeFault p s ∧ Raised i s p) ∨ ∃ e, t = commit e s ∧ Staged i s e := by
  have hst : stores i = false := by rcases hi with rfl | rfl <;> rfl
  have hl : modesOf i = [m1, m2] := by rcases hi with rfl | rfl <;> rfl
  have hn : ∀ m, i ≠ .input m := by rcases hi with rfl | rfl <;> simp
  rw [jumpWhen_eq] at h
  cases hp : problem2 m1 m2 s with
  | some p => rw [hp] at h; cases h; exact .inl ⟨p, rfl, raised_of_problem2 (by simp [paramMode, hl]) (by simp [paramMode, hl]) hp⟩
  | none =>
    rw [hp] at h
    simp only at h
    have touches : ∀ a ∈ s.pc :: (operandTouched 1 m1 s ++ operandTouched 2 m2 s),
        a = s.pc ∨ beyondCap s.config a = false := touched2_fits hp
    split_ifs at h with ht hneg
    · cases h
      refine .inl ⟨_, rfl, ⟨⟨_, _, _, rfl, by simp⟩, ?_, ?_, ?_, fun _ => ⟨hneg, rfl, m1, m2, rfl, htrue ht⟩, ?_, ?_⟩⟩ <;>
        simp [faultFetched]
    · cases h
      refine .inr ⟨_, rfl, ⟨by simp, touches, fun a v hv => (by cases hv), fun hs => (by simp [hst] at hs), .inr ⟨m1, m2, hi, Int.not_lt.mp hneg,
        Int.toNat_of_nonneg (Int.not_lt.mp hneg)⟩, .inl rfl, .inr ⟨rfl, hn⟩, fun v hv => by cases hv⟩⟩
    · cases h
      refine .inr ⟨_, rfl, ⟨by simp, touches, fun a v hv => (by cases hv), fun hs => (by simp [hst] at hs), .inl (by simp [hl]),
        .inl rfl, .inr ⟨rfl, hn⟩, fun v hv => by cases hv⟩⟩

/-- Everything `exec` can answer: a fault taken, a block, a halt, or a commit of staged effects. -/
theorem exec_cases {i : Instr} {s t : State} (h : exec i s = .next t) :
    (∃ p, t = takeFault p s ∧ Raised i s p) ∨
    (t = takeBlock s ∧ s.iq = [] ∧ ∃ m1, i = .input m1) ∨
    (t = takeHalt s ∧ i = .halt) ∨
    ∃ e, t = commit e s ∧ Staged i s e := by
  have word : ∀ (i : Instr) (r : Int), exactResult i s r →
      (∃ v, checkWord r s = .ok v ∧ storedWord i s v) ∨ ∃ p, checkWord r s = .error p ∧ Raised i s p := by
    intro i r hi
    cases hw : inWord s.config r with
    | true => exact .inl ⟨r, checkWord_ok hw, .inl hw⟩
    | false => exact .inr ⟨_, checkWord_error hw, raised_overflow hw hi⟩
  have truth : ∀ (i : Instr) (b : Bool), storedWord i s (truthWord b) := by
    intro i b
    cases b
    · exact .inr (.inl rfl)
    · exact .inr (.inr (.inl rfl))
  cases i with
  | add m1 m2 m3 =>
    change storeBinary (fun a b => checkWord (a + b) s) m1 m2 m3 s = .next t at h
    exact (storeBinary_cases rfl rfl (by simp) rfl rfl (word _ _ (.inl ⟨m1, m2, m3, rfl, rfl⟩)) h).imp id
      fun c => .inr (.inr c)
  | mul m1 m2 m3 =>
    change storeBinary (fun a b => checkWord (a * b) s) m1 m2 m3 s = .next t at h
    exact (storeBinary_cases rfl rfl (by simp) rfl rfl (word _ _ (.inr (.inl ⟨m1, m2, m3, rfl, rfl⟩))) h).imp id
      fun c => .inr (.inr c)
  | lessThan m1 m2 m3 =>
    change storeBinary (fun a b => .ok (truthWord (decide (a < b)))) m1 m2 m3 s = .next t at h
    exact (storeBinary_cases rfl rfl (by simp) rfl rfl (.inl ⟨_, rfl, truth _ _⟩) h).imp id
      fun c => .inr (.inr c)
  | equals m1 m2 m3 =>
    change storeBinary (fun a b => .ok (truthWord (decide (a = b)))) m1 m2 m3 s = .next t at h
    exact (storeBinary_cases rfl rfl (by simp) rfl rfl (.inl ⟨_, rfl, truth _ _⟩) h).imp id
      fun c => .inr (.inr c)
  | jumpIfTrue m1 m2 => exact (jumpWhen_cases (.inl rfl) (fun ht => .inl ⟨rfl, of_decide_eq_true ht⟩) h).imp id fun c => .inr (.inr c)
  | jumpIfFalse m1 m2 =>
    change jumpWhen (fun a => !wordIsTrue a) m1 m2 s = .next t at h
    exact (jumpWhen_cases (.inr rfl) (fun ht => .inr ⟨rfl, by simpa [wordIsTrue] using ht⟩) h).imp id fun c => .inr (.inr c)
  | halt => cases h; exact .inr (.inr (.inl ⟨rfl, rfl⟩))
  | input m1 =>
    simp only [exec, execInput] at h
    cases hq : s.iq with
    | nil => rw [hq] at h; cases h; exact .inr (.inl ⟨rfl, rfl, m1, rfl⟩)
    | cons x rest =>
      rw [hq] at h
      simp only at h
      by_cases hm : m1 = .immediate
      · subst hm
        simp only [withTarget, writeTarget, checkAddress_param (show (1 : Fin 4) ≠ 0 by decide)] at h
        cases h3 : addressProblem 1 ((s.pc + (1 : Fin 4) : Nat) : Int) s with
        | some p =>
          rw [h3] at h; cases h
          exact .inl ⟨p, rfl, raised_of_operand (k := 1) (m := .immediate) rfl (by rw [operandProblem, h3]; rfl)⟩
        | none =>
          rw [h3] at h
          simp only [effectiveAddress, orFault_error, Host.Outcome.next.injEq] at h
          refine .inl ⟨_, h.symm, ⟨⟨_, _, _, rfl, by simp⟩, fun _ => rfl, ?_, ?_, ?_, ?_, ?_⟩⟩ <;> simp [faultFetched]
      · rw [withTarget_eq (by decide) hm] at h
        cases hp : operandProblem 1 m1 s with
        | some p => rw [hp] at h; cases h; exact .inl ⟨p, rfl, raised_of_operand rfl hp⟩
        | none =>
          rw [hp] at h
          cases h
          refine .inr (.inr (.inr ⟨_, rfl, ⟨by simp, touched1_fits hp, ?_, fun _ => ⟨_, _, rfl⟩, .inl (by simp [modesOf]), .inl rfl,
            .inl ⟨rfl, ⟨m1, rfl⟩, by simp [hq]⟩, fun v hv => by cases hv⟩⟩))
          intro a v hv
          cases hv
          exact ⟨rfl, List.mem_cons_of_mem _ (targetAddress_touched hm s), .inr (.inr (.inr ⟨⟨m1, rfl⟩, by simp [hq]⟩)), rfl⟩
  | output m1 =>
    simp only [exec, execOutput_eq] at h
    cases hp : operandProblem 1 m1 s with
    | some p => rw [hp] at h; cases h; exact .inl ⟨p, rfl, raised_of_operand rfl hp⟩
    | none =>
      rw [hp] at h
      simp only [queueFull_eq, decide_eq_true_eq] at h
      split_ifs at h with hq
      · cases h
        refine .inl ⟨_, rfl, ⟨⟨_, _, _, rfl, by simp⟩, ?_, ?_, ?_, ?_, ?_, fun _ => ⟨rfl, rfl, hq, m1, rfl⟩⟩⟩ <;> simp [recordAt]
      · cases h
        refine .inr (.inr (.inr ⟨_, rfl, ⟨by simp, touched1_fits hp, fun a v hv => (by cases hv), fun hs => (by cases hs), .inl (by simp [modesOf]),
          .inl rfl, .inr ⟨rfl, by simp⟩, ?_⟩⟩))
        intro v hv
        cases hv
        exact ⟨m1, rfl, hq, rfl⟩
  | adjustBase m1 =>
    simp only [exec, execAdjustBase_eq] at h
    cases hp : operandProblem 1 m1 s with
    | some p => rw [hp] at h; cases h; exact .inl ⟨p, rfl, raised_of_operand rfl hp⟩
    | none =>
      rw [hp] at h
      simp only at h
      cases hw : inWord s.config (s.rb + operandValue 1 m1 s) with
      | true =>
        rw [checkWord_ok hw] at h
        cases h
        exact .inr (.inr (.inr ⟨_, rfl, ⟨by simp, touched1_fits hp, fun a v hv => (by cases hv), fun hs => (by cases hs), .inl (by simp [modesOf]),
          .inr ⟨⟨m1, rfl⟩, hw⟩, .inr ⟨rfl, by simp⟩, fun v hv => by cases hv⟩⟩))
      | false =>
        rw [checkWord_error hw] at h
        cases h
        exact .inl ⟨_, rfl, raised_overflow hw (.inr (.inr ⟨m1, rfl, rfl⟩))⟩

/-- `exec` always answers a next state. -/
theorem exec_next (i : Instr) (s : State) : ∃ t, exec i s = .next t := by
  cases h : exec i s with
  | next t => exact ⟨t, rfl⟩
  | fault f => cases f
  | refused r =>
    exfalso
    have noRefusal : ∀ {α : Type} (x : Except FaultRecord α) (k : α → Host.Outcome State Fault Refusal),
        (∀ a, ∃ t, k a = .next t) → ∃ t, orFault x s k = .next t := by
      intro α x k hk
      cases x with
      | error f => exact ⟨_, rfl⟩
      | ok a => exact hk a
    have next : ∃ t, exec i s = .next t := by
      cases i with
      | add m1 m2 m3 => exact noRefusal _ _ fun a => noRefusal _ _ fun b => noRefusal _ _ fun d => noRefusal _ _ fun r => ⟨_, rfl⟩
      | mul m1 m2 m3 => exact noRefusal _ _ fun a => noRefusal _ _ fun b => noRefusal _ _ fun d => noRefusal _ _ fun r => ⟨_, rfl⟩
      | lessThan m1 m2 m3 => exact noRefusal _ _ fun a => noRefusal _ _ fun b => noRefusal _ _ fun d => noRefusal _ _ fun r => ⟨_, rfl⟩
      | equals m1 m2 m3 => exact noRefusal _ _ fun a => noRefusal _ _ fun b => noRefusal _ _ fun d => noRefusal _ _ fun r => ⟨_, rfl⟩
      | jumpIfTrue m1 m2 =>
        refine noRefusal _ _ fun a => noRefusal _ _ fun b => ?_
        split_ifs <;> exact ⟨_, rfl⟩
      | jumpIfFalse m1 m2 =>
        refine noRefusal _ _ fun a => noRefusal _ _ fun b => ?_
        split_ifs <;> exact ⟨_, rfl⟩
      | input m1 =>
        simp only [exec, execInput]
        cases s.iq with
        | nil => exact ⟨_, rfl⟩
        | cons x rest => exact noRefusal _ _ fun d => ⟨_, rfl⟩
      | output m1 =>
        refine noRefusal _ _ fun a => ?_
        split_ifs <;> exact ⟨_, rfl⟩
      | adjustBase m1 => exact noRefusal _ _ fun a => noRefusal _ _ fun r => ⟨_, rfl⟩
      | halt => exact ⟨_, rfl⟩
    obtain ⟨t, ht⟩ := next
    rw [ht] at h
    cases h

end Sys2Proof.Machine
end

