-- ==== Sys2Proof/Laws/PerInstr.lean ====
section
/-! SUPPORT. EncodedFields: the encoding of every instruction holds its code in the two low digits and the mode digit of
parameter k in digit k + 1, with 0 above (30_encoding.md R71, R83). -/

namespace Sys2Proof.Laws.EncodedFields

/-- The decimal fields of an encoded instruction. -/
def Statement (i : Instr) : Prop :=
  instrCode (encode i) = codeOf i ∧
    ∀ k : Fin 5, digit (encode i) (k + 2) = ((modesOf i).map modeDigit).getD k 0

theorem add (m1 m2 m3 : Mode) : Statement (.add m1 m2 m3) := by
  cases m1 <;> cases m2 <;> cases m3 <;> exact ⟨rfl, by decide⟩

theorem mul (m1 m2 m3 : Mode) : Statement (.mul m1 m2 m3) := by
  cases m1 <;> cases m2 <;> cases m3 <;> exact ⟨rfl, by decide⟩

theorem input (m1 : Mode) : Statement (.input m1) := by
  cases m1 <;> exact ⟨rfl, by decide⟩

theorem output (m1 : Mode) : Statement (.output m1) := by
  cases m1 <;> exact ⟨rfl, by decide⟩

theorem jumpIfTrue (m1 m2 : Mode) : Statement (.jumpIfTrue m1 m2) := by
  cases m1 <;> cases m2 <;> exact ⟨rfl, by decide⟩

theorem jumpIfFalse (m1 m2 : Mode) : Statement (.jumpIfFalse m1 m2) := by
  cases m1 <;> cases m2 <;> exact ⟨rfl, by decide⟩

theorem lessThan (m1 m2 m3 : Mode) : Statement (.lessThan m1 m2 m3) := by
  cases m1 <;> cases m2 <;> cases m3 <;> exact ⟨rfl, by decide⟩

theorem equals (m1 m2 m3 : Mode) : Statement (.equals m1 m2 m3) := by
  cases m1 <;> cases m2 <;> cases m3 <;> exact ⟨rfl, by decide⟩

theorem adjustBase (m1 : Mode) : Statement (.adjustBase m1) := by
  cases m1 <;> exact ⟨rfl, by decide⟩

theorem halt : Statement .halt := ⟨rfl, by decide⟩

end Sys2Proof.Laws.EncodedFields
end

