-- ==== Sys2Proof/Laws/Step.lean ====
section
/-! SUPPORT. What one step is: fetch, decode and `exec` while a run is in progress, a host command otherwise. -/

namespace Sys2Proof.Machine

/-- PC, a natural number, is never a negative address. -/
theorem checkAddress_pc (s : State) :
    checkAddress 0 (s.pc : Int) s =
      if beyondCap s.config s.pc then .error (faultUnfetched s .memoryCapacity s.pc) else .ok s.pc := by
  have h : ¬((s.pc : Int) < 0) := by omega
  simp [checkAddress, h, addressFault]

theorem beyondCap_pc (s : State) : beyondCap s.config s.pc = !pcInMemory s := by
  unfold beyondCap pcInMemory
  cases s.config.memCap with
  | none => rfl
  | some cap =>
    by_cases h : s.pc < cap
    · simp [h]
    · simp [h]; omega

/-- The fetch succeeds exactly where `fetchable` says, and gives the word at PC. -/
theorem fetch_ok {s : State} (h : fetchable s = true) : fetch s = .ok (s.mem.read s.pc) := by
  simp only [fetchable, atEndOfProgram, Bool.and_eq_true, Bool.not_eq_true', decide_eq_false_iff_not] at h
  simp [fetch, h.1, checkAddress_pc, beyondCap_pc, h.2]

theorem fetch_end {s : State} (h : atEndOfProgram s = true) :
    fetch s = .error (faultUnfetched s .endOfProgram 0) := by
  unfold atEndOfProgram at h
  rw [fetch, if_pos (of_decide_eq_true h)]

theorem fetch_beyond {s : State} (he : atEndOfProgram s = false) (hp : pcInMemory s = false) :
    fetch s = .error (faultUnfetched s .memoryCapacity s.pc) := by
  unfold atEndOfProgram at he
  simp [fetch, of_decide_eq_false he, checkAddress_pc, beyondCap_pc, hp]

/-- A fetchable PC lies within the memory. -/
theorem pc_fits {s : State} (h : fetchable s = true) : beyondCap s.config s.pc = false := by
  simp only [fetchable, Bool.and_eq_true] at h
  simp [beyondCap_pc, h.2]

theorem step_running {s : State} (h : s.status = .running) : step s = endingRun (instructionStep s) := by
  simp [step, cycle, h]

theorem step_host {s : State} (h : s.status ≠ .running) : step s = .next (hostStep s) := by
  unfold step cycle
  cases hs : s.status with
  | running => exact absurd hs h
  | ready => rfl
  | blocked => rfl
  | halted => rfl
  | faulted => rfl

/-- The host's step with a command pending. -/
theorem hostStep_cons {s : State} {c : Command} {rest : List Command} (h : s.port.pending = c :: rest) :
    hostStep s = { (hostCommand c s).1 with
      port := { pending := rest, replies := s.port.replies ++ (hostCommand c s).2.toList } } := by
  simp [hostStep, h]

theorem hostStep_nil {s : State} (h : s.port.pending = []) : hostStep s = s := by
  simp [hostStep, h]

/-- What an instruction step is, by the fetch and the decode. -/
theorem instructionStep_exec {s : State} {i : Instr} (hf : fetchable s = true)
    (hd : decode (s.mem.read s.pc) = .ok i) : instructionStep s = exec i s := by
  simp [instructionStep, fetch_ok hf, hd]

theorem instructionStep_rejected {s : State} {e : DecodeError} (hf : fetchable s = true)
    (hd : decode (s.mem.read s.pc) = .error e) :
    instructionStep s = .next (takeFault (decodeFault s e) s) := by
  simp [instructionStep, fetch_ok hf, hd]

/-- Everything an instruction step can do: the fetch faults, the decoder rejects the word, or `exec` runs it. -/
theorem instructionStep_cases (s : State) :
    (atEndOfProgram s = true ∧ instructionStep s = .next (takeFault (faultUnfetched s .endOfProgram 0) s)) ∨
    (atEndOfProgram s = false ∧ pcInMemory s = false ∧
      instructionStep s = .next (takeFault (faultUnfetched s .memoryCapacity s.pc) s)) ∨
    (fetchable s = true ∧ ∃ e, decode (s.mem.read s.pc) = .error e ∧
      instructionStep s = .next (takeFault (decodeFault s e) s)) ∨
    (fetchable s = true ∧ ∃ i, decode (s.mem.read s.pc) = .ok i ∧ instructionStep s = exec i s) := by
  cases he : atEndOfProgram s with
  | true => exact .inl ⟨rfl, by simp [instructionStep, fetch_end he]⟩
  | false =>
    cases hp : pcInMemory s with
    | false => exact .inr (.inl ⟨rfl, rfl, by simp [instructionStep, fetch_beyond he hp]⟩)
    | true =>
      have hf : fetchable s = true := by simp [fetchable, he, hp]
      cases hd : decode (s.mem.read s.pc) with
      | error e => exact .inr (.inr (.inl ⟨hf, e, rfl, instructionStep_rejected hf hd⟩))
      | ok i => exact .inr (.inr (.inr ⟨hf, i, rfl, instructionStep_exec hf hd⟩))

/-- Everything a step of a RUNNING core can do. -/
theorem step_running_cases {s t : State} (hr : s.status = .running) (h : step s = .next t) :
    (∃ f, t = returnFromRun (takeFault f s) ∧
      ((atEndOfProgram s = true ∧ f = faultUnfetched s .endOfProgram 0) ∨
       (atEndOfProgram s = false ∧ pcInMemory s = false ∧ f = faultUnfetched s .memoryCapacity s.pc) ∨
       (fetchable s = true ∧ ∃ e, decode (s.mem.read s.pc) = .error e ∧ f = decodeFault s e) ∨
       ∃ i, executes s i ∧ Raised i s f)) ∨
    (t = returnFromRun (takeBlock s) ∧ s.iq = [] ∧ ∃ m1, executes s (.input m1)) ∨
    (t = returnFromRun (takeHalt s) ∧ executes s .halt) ∨
    ∃ i e, executes s i ∧ t = returnFromRun (commit e s) ∧ Staged i s e := by
  rw [step_running hr] at h
  rcases instructionStep_cases s with ⟨h1, h2⟩ | ⟨h1, h1', h2⟩ | ⟨hf, e, hd, h2⟩ | ⟨hf, i, hd, h2⟩
  · rw [h2] at h; cases h; exact .inl ⟨_, rfl, .inl ⟨h1, rfl⟩⟩
  · rw [h2] at h; cases h; exact .inl ⟨_, rfl, .inr (.inl ⟨h1, h1', rfl⟩)⟩
  · rw [h2] at h; cases h; exact .inl ⟨_, rfl, .inr (.inr (.inl ⟨hf, e, hd, rfl⟩))⟩
  · obtain ⟨u, hu⟩ := exec_next i s
    have hx : executes s i := ⟨hr, hf, hd⟩
    rw [h2, hu] at h
    cases h
    rcases exec_cases hu with ⟨p, rfl, hp⟩ | ⟨rfl, hq, m1, rfl⟩ | ⟨rfl, rfl⟩ | ⟨e, rfl, he⟩
    · exact .inl ⟨p, rfl, .inr (.inr (.inr ⟨i, hx, hp⟩))⟩
    · exact .inr (.inl ⟨rfl, hq, m1, hx⟩)
    · exact .inr (.inr (.inl ⟨rfl, hx⟩))
    · exact .inr (.inr (.inr ⟨i, e, hx, rfl, he⟩))

/-! ## Every memory operation keeps the canonical form -/

theorem commit_mem_wf {s : State} (h : s.mem.wf) (e : Effects) : (commit e s).mem.wf := by
  rw [commit_mem]
  cases e.write with
  | none => exact h
  | some w => exact Memory.write_wf h _ _

theorem writeMemory_mem_wf {s t : State} {i v : Int} (h : s.mem.wf) (hw : writeMemory i v s = some t) :
    t.mem.wf := by
  unfold writeMemory at hw
  split_ifs at hw
  cases hw
  exact Memory.write_wf h _ _

theorem construct_mem_wf {c : Config} {program : List Word} {t : State} (h : construct c program = some t) :
    t.mem.wf := by
  unfold construct at h
  split_ifs at h
  cases h
  exact Memory.ofProgram_wf _ _

theorem placeInstruction_mem_wf {s : State} (h : s.mem.wf) (w : Word) : (placeInstruction w s).mem.wf :=
  Memory.write_wf (Memory.write_wf (Memory.write_wf (Memory.write_wf h _ _) _ _) _ _) _ _

end Sys2Proof.Machine
end

