-- ==== Sys2Proof/Tests/Slice0.lean ====
section
/-! SUPPORT. The model's own tests, and for each obligation that has hypotheses a concrete state that meets them. Expected
results are those of spec/95_test_vectors.md (the vector is named) or are computed by hand from the rule named. -/

open Sys2Proof Sys2Proof.Machine

namespace Sys2Proof.Tests

/-! ## Helpers -/

/-- A run in progress at the first word of `program`, with `iq` as the input queue. -/
def running (c : Config) (program iq : List Int) : State :=
  { State.reset with
    config := c, mem := Memory.ofProgram 0 program, memLen := program.length, iq := iq, status := .running }

/-- The same core, READY, with the host's commands pending. -/
def waiting (c : Config) (program : List Int) (commands : List Command) : State :=
  { running c program [] with status := .ready, port := { pending := commands, replies := [] } }

/-- The next state, or the same state where there is none (there always is one: `step_after`). -/
def after (s : State) : State :=
  match step s with
  | .next t => t
  | .fault _ => s
  | .refused _ => s

/-- The next state of `exec`, likewise. -/
def afterExec (i : Instr) (s : State) : State :=
  match exec i s with
  | .next t => t
  | .fault _ => s
  | .refused _ => s

theorem step_after (s : State) : step s = .next (after s) := by
  unfold after
  cases h : step s with
  | next t => rfl
  | fault f => cases f
  | refused r =>
    by_cases hr : s.status = .running
    · rw [step_running hr] at h
      rcases instructionStep_cases s with ⟨_, e⟩ | ⟨_, _, e⟩ | ⟨_, _, _, e⟩ | ⟨_, i, _, e⟩
      · rw [e] at h; cases h
      · rw [e] at h; cases h
      · rw [e] at h; cases h
      · obtain ⟨t, ht⟩ := exec_next i s
        rw [e, ht] at h; cases h
    · rw [step_host hr] at h; cases h

theorem exec_after (i : Instr) (s : State) : exec i s = .next (afterExec i s) := by
  obtain ⟨t, h⟩ := exec_next i s
  simp [afterExec, h]

/-- The record a stop reports. -/
def stopped (cause : Cause) (pc : Nat) (word : Word) (param : Fin 4) (value : Int) : FaultRecord :=
  { cause := cause, pc := pc, wordValid := true, word := word, param := param, value := value }

/-- `WORD_BITS = 16`, `MEM_CAP = 32768`, as every vector with a finite width has. -/
def bits16 : Config := { Config.unbounded with wordBits := some 16, memCap := some 32768 }

def cap (n : Nat) : Config := { Config.unbounded with memCap := some n }

def queues1 : Config := { Config.unbounded with iqCap := some 1, oqCap := some 1 }

def extending : Config := { Config.unbounded with endPolicy := .extend }

abbrev free : Config := Config.unbounded

/-! ## Well-formedness refuses an immediate write target -/

theorem test_wf_add : (Instr.add .immediate .immediate .immediate).wellFormed = false := by decide
theorem test_wf_mul : (Instr.mul .position .relative .immediate).wellFormed = false := by decide
theorem test_wf_input : (Instr.input .immediate).wellFormed = false := by decide
theorem test_wf_less_than : (Instr.lessThan .position .position .immediate).wellFormed = false := by decide
theorem test_wf_equals : (Instr.equals .position .position .immediate).wellFormed = false := by decide
theorem test_wf_accepts : (Instr.add .immediate .immediate .relative).wellFormed = true := by decide

/-! ## Decoding: the words of 30_encoding.md R71 to R76 and 95_test_vectors.md -/

theorem test_decode_add : decode 22201 = .ok (.add .relative .relative .relative) := by decide  -- V-ADD-3
theorem test_decode_mul : decode 1002 = .ok (.mul .position .immediate .position) := by decide  -- S3
theorem test_decode_input : decode 203 = .ok (.input .relative) := by decide  -- V-IN-1
theorem test_decode_output : decode 104 = .ok (.output .immediate) := by decide  -- V-OUT-1
theorem test_decode_jump_if_true : decode 2105 = .ok (.jumpIfTrue .immediate .relative) := by decide  -- V-JMP-13
theorem test_decode_jump_if_false : decode 1006 = .ok (.jumpIfFalse .position .immediate) := by decide  -- S6
theorem test_decode_less_than :
    decode 21107 = .ok (.lessThan .immediate .immediate .relative) := by decide  -- V-CMP-7
theorem test_decode_equals : decode 8 = .ok (.equals .position .position .position) := by decide  -- V-CMP-6
theorem test_decode_adjust_base : decode 209 = .ok (.adjustBase .relative) := by decide  -- V-BASE-2
theorem test_decode_halt : decode 99 = .ok .halt ∧ decode (-1) = .ok .halt := by decide  -- S1, R72
theorem test_decode_ignored_digits :
    decode 900105 = .ok (.jumpIfTrue .immediate .position) ∧ decode 1099 = .ok .halt := by decide  -- V-JMP-11, R74
theorem test_decode_invalid_code :
    decode 0 = .error .invalidOpcode ∧ decode 98 = .error .invalidOpcode ∧
    decode 100 = .error .invalidOpcode ∧ decode (-2) = .error .invalidOpcode := by decide  -- V-DEC-1 to 4
theorem test_decode_invalid_mode :
    decode 301 = .error (.invalidMode 1 3) ∧ decode 3005 = .error (.invalidMode 2 3) ∧
    decode (-99) = .error (.invalidMode 1 9) := by decide  -- V-ADD-8, V-JMP-10, V-DEC-7
theorem test_decode_immediate_write :
    decode 11101 = .error (.immediateWrite 3) ∧ decode 103 = .error (.immediateWrite 1) := by decide  -- V-ADD-7, V-IN-2
theorem test_encode : encodeWords (.add .immediate .immediate .position) [3, 4, 0] = [1101, 3, 4, 0] := by decide  -- R83
theorem test_table_word : decodeTableWord 64 1101 = some (.add .immediate .immediate .position) := by decide
theorem test_table_word_refused : decodeTableWord 32 0 = none := by decide

/-! ## One step of each instruction -/

/-- V-ADD-1. -/
theorem test_add_step :
    (after (running free [1, 5, 6, 7, 99, 10, 20, 0] [])).mem.read 7 = 30 ∧
    (after (running free [1, 5, 6, 7, 99, 10, 20, 0] [])).pc = 4 := by decide
/-- V-ADD-13. -/
theorem test_add_overflow :
    (after (running bits16 [1101, -32768, -1, 0, 99] [])).fault = stopped .wordOverflow 0 1101 0 (-32769) := by decide
/-- V-MUL-4. -/
theorem test_mul_step : (after (running bits16 [1102, -128, 256, 0, 99] [])).mem.read 0 = -32768 := by decide
/-- V-MUL-5. -/
theorem test_mul_overflow :
    (after (running bits16 [1102, -1, -32768, 0, 99] [])).fault = stopped .wordOverflow 0 1102 0 32768 := by decide
/-- V-IN-9, its first step: the parameter word at L reads 0. -/
theorem test_input_step :
    (after (running free [3] [5])).mem = [(0, 5)] ∧ (after (running free [3] [5])).memLen = 2 ∧
    (after (running free [3] [5])).iq = [] ∧ (after (running free [3] [5])).pc = 2 := by decide
/-- V-IN-8. -/
theorem test_input_blocks :
    (after (running free [3] [])).status = .blocked ∧ (after (running free [3] [])).memLen = 1 ∧
    (after (running free [3] [])).pc = 0 := by decide
/-- V-OUT-5, its first step. -/
theorem test_output_step :
    (after (running free [4, 100, 99] [])).oq = [0] ∧ (after (running free [4, 100, 99] [])).memLen = 101 := by decide
/-- V-OUT-4, its second step. -/
theorem test_output_full :
    (after (after (running queues1 [104, 1, 104, 2, 99] []))).fault = stopped .outputQueueFull 2 104 0 0 := by decide
/-- V-JMP-9, its first step: position operands. -/
theorem test_jump_if_true_step : (after (running free [5, 5, 6, 99, 99, 3, 4] [])).pc = 4 := by decide
/-- V-JMP-6, its first step: a negative target that is not taken is never checked. -/
theorem test_jump_if_true_falls : (after (running free [1105, 0, -1, 99] [])).pc = 3 := by decide
/-- V-JMP-14. -/
theorem test_jump_if_false_negative :
    (after (running free [1106, 0, -1, 99] [])).fault = stopped .negativeJumpTarget 0 1106 2 (-1) := by decide
/-- V-JMP-4, its first step. -/
theorem test_jump_if_false_falls : (after (running free [1106, 5, 4, 99, 104, 7, 99] [])).pc = 3 := by decide
/-- V-CMP-1: the comparison is signed. -/
theorem test_less_than_signed : (after (running free [1107, -1, 0, 0, 99] [])).mem.read 0 = 1 := by decide
/-- The corner case of 43_compare.md R140: `7,0,0,0,99` writes 0 over its own instruction word. -/
theorem test_less_than_own_word : (after (running free [7, 0, 0, 0, 99] [])).mem = [(4, 99)] := by decide
/-- The corner case of 43_compare.md R141: `8,0,0,0,99` writes 1 over its own instruction word. -/
theorem test_equals_own_word : (after (running free [8, 0, 0, 0, 99] [])).mem = [(0, 1), (4, 99)] := by decide
/-- The example of 43_compare.md R141. -/
theorem test_equals_differ : (after (running free [1108, 7, 8, 0, 99] [])).mem.read 0 = 0 := by decide
/-- V-BASE-2, its second step: the operand is resolved with the old base. -/
theorem test_adjust_base_old_base : (after (after (running free [109, 5, 209, -5, 99] []))).rb = 114 := by decide
/-- The example of 44_base.md R150. -/
theorem test_adjust_base_negative : (after (running free [109, -5, 99] [])).rb = -5 := by decide
/-- S1. -/
theorem test_halt_step :
    (after (running free [99] [])).halted = true ∧ (after (running free [99] [])).status = .halted ∧
    (after (running free [99] [])).pc = 0 ∧
    (after (running free [99] [])).port.replies = [.stopped .halted] := by decide

/-! ## Fetching and placing -/

/-- V-ADD-10: no growth on a fault. -/
theorem test_fault_keeps_length :
    (after (running free [1, 10, 0, -1] [])).memLen = 4 ∧
    (after (running free [1, 10, 0, -1] [])).fault = stopped .negativeAddress 0 1 3 (-1) := by decide
/-- `withFetchWord` from reset places the word where the very next step runs it. -/
theorem test_fetch_word : (after (State.reset.withFetchWord 64 1101)).pc = 4 := by decide
/-- reset, then construct and run through the port: two steps before the first instruction. -/
theorem test_from_reset :
    (after (after { State.reset with port := { pending := [.construct [99], .run], replies := [] } })).status =
      .running := by decide

/-! ## Witnesses of the hypotheses of the obligations -/

theorem witness_DecodeEncodeAgree :
    decode 99900001 = .ok (.add .position .position .position) ∧
    (Instr.add .position .position .position).wellFormed = true ∧
    (99900001 : Int) = encode (.add .position .position .position) + 999 * 10 ^ 5 := by decide

theorem witness_DecodeRejectsByFirstDefect :
    decode 10 = .error .invalidOpcode ∧ codeDefined (instrCode 10) = false ∧
    decode 11301 = .error (.invalidMode 1 3) ∧ decode 13101 = .error (.invalidMode 2 3) ∧
    decode 31101 = .error (.invalidMode 3 3) ∧ decode 11101 = .error (.immediateWrite 3) := by decide

/-- A halt with other digits, and an add with a digit above its three. -/
theorem witness_DecodeReadsOnlyConsultedDigits :
    instrCode (199 : Nat) = instrCode (99 : Nat) ∧ paramCount (instrCode (199 : Nat)) = 0 ∧
    instrCode (921101 : Nat) = instrCode (21101 : Nat) ∧ paramCount (instrCode (921101 : Nat)) = 3 ∧
    digit (921101 : Nat) 2 = digit (21101 : Nat) 2 ∧ digit (921101 : Nat) 3 = digit (21101 : Nat) 3 ∧
    digit (921101 : Nat) 4 = digit (21101 : Nat) 4 := by decide

theorem witness_StepRunsDecodedInstruction :
    executes (running free [1101, 1, 1, 0] []) (.add .immediate .immediate .position) :=
  ⟨rfl, by decide, by decide⟩

/-- Clause 1: exactly PC = L, here both 0. -/
theorem witness_FetchStopsAtEndOrCapacity_end :
    (running free [] []).status = .running ∧ atEndOfProgram (running free [] []) = true := by decide

/-- Clause 2: PC is the first address beyond the capacity, and not L. -/
theorem witness_FetchStopsAtEndOrCapacity_capacity :
    (let s : State := { running (cap 8) [99] [] with pc := 8 }
     s.status = .running ∧ atEndOfProgram s = false ∧ pcInMemory s = false) := by decide

/-- Under `MEM_CAP = L = PC` both stops are met, and clause 1 alone applies. -/
theorem witness_FetchStopsAtEndOrCapacity_meet :
    (let s : State := { running (cap 1) [99] [] with pc := 1 }
     atEndOfProgram s = true ∧ pcInMemory s = false) := by decide

/-- Clause 3: PC = L under EXTEND. -/
theorem witness_FetchStopsAtEndOrCapacity_zero :
    Inv (running extending [] []) ∧ fetchable (running extending [] []) = true ∧
    (running extending [] []).memLen ≤ (running extending [] []).pc := by
  refine ⟨?_, by decide, by decide⟩
  constructor <;> decide

theorem witness_DecodeFaultIsRecorded :
    (running free [0] []).status = .running ∧ fetchable (running free [0] []) = true ∧
    decode ((running free [0] []).mem.read 0) = .error .invalidOpcode ∧
    fetchable (running free [301] []) = true ∧
    decode ((running free [301] []).mem.read 0) = .error (.invalidMode 1 3) ∧
    fetchable (running free [103] []) = true ∧
    decode ((running free [103] []).mem.read 0) = .error (.immediateWrite 1) := by decide

/-- The least and the greatest code of the range 10 to 98, and code 0. -/
theorem witness_IllegalCodesFault :
    fetchable (running free [10] []) = true ∧ instrCode ((running free [10] []).mem.read 0) = 10 ∧
    fetchable (running free [98] []) = true ∧ instrCode ((running free [98] []).mem.read 0) = 98 ∧
    fetchable (running free [100] []) = true ∧ instrCode ((running free [100] []).mem.read 0) = 0 := by decide

theorem witness_FaultEntryKeepsEverythingElse :
    step (running free [1, -1, 0, 0, 99] []) = .next (after (running free [1, -1, 0, 0, 99] [])) ∧
    (running free [1, -1, 0, 0, 99] []).status = .running ∧
    (after (running free [1, -1, 0, 0, 99] [])).status = .faulted ∧
    (after (running free [1, -1, 0, 0, 99] [])).fault.wordValid = true :=
  ⟨step_after _, by decide⟩

theorem witness_FaultEntryKeepsEverythingElse_unfetched :
    step (running free [] []) = .next (after (running free [] [])) ∧
    (after (running free [] [])).status = .faulted ∧ (after (running free [] [])).fault.wordValid = false :=
  ⟨step_after _, by decide⟩

/-- MemoryCapacity by the fetch, by a parameter word, and by an operand. -/
theorem witness_FaultCauseNamesItsInstruction_capacity :
    (after { running (cap 1) [99] [] with pc := 2 }).fault =
      { stopped .memoryCapacity 2 0 0 2 with wordValid := false } ∧
    (after (running (cap 1) [104] [])).fault = stopped .memoryCapacity 0 104 1 1 ∧
    (after (running (cap 2) [4, 2] [])).fault = stopped .memoryCapacity 0 4 1 2 := by decide

/-- One step that faults for each cause; that each is a step is `step_after`. -/
theorem witness_FaultCauseNamesItsInstruction :
    (after (running free [] [])).fault.cause = .endOfProgram ∧
    (after (running free [10] [])).fault.cause = .invalidOpcode ∧
    (after (running free [301] [])).fault.cause = .invalidMode ∧
    (after (running free [11101] [])).fault.cause = .immediateWrite ∧
    (after (running free [1, -1, 0, 0] [])).fault.cause = .negativeAddress ∧
    (after (running (cap 8) [1101, 1, 1, 8] [])).fault.cause = .memoryCapacity ∧
    (after (running free [1105, 1, -1] [])).fault.cause = .negativeJumpTarget ∧
    (after (running bits16 [1102, -1, -32768, 0] [])).fault.cause = .wordOverflow ∧
    (after { running queues1 [104, 2] [] with oq := [1] }).fault.cause = .outputQueueFull ∧
    (after { running queues1 [104, 2] [] with oq := [1] }).status = .faulted := by decide

/-- V-IN-2, V-IN-5 and V-IN-6: one per clause. -/
theorem witness_InputFaultsAndBlocksInOrder :
    fetchable (running free [103, 0, 99] []) = true ∧ digit ((running free [103, 0, 99] []).mem.read 0) 2 = 1 ∧
    instrCode ((running free [103, 0, 99] []).mem.read 0) = 3 ∧
    fetchable (running free [3, -1] []) = true ∧ digit ((running free [3, -1] []).mem.read 0) 2 = 0 ∧
    (running free [3, -1] []).iq = [] ∧ (running free [3, -1] [1]).iq ≠ [] ∧
    fetchable (running free [3, -1] [1]) = true ∧
    pcInMemory { running free [3, -1] [1] with pc := 1 } = true ∧
    (running free [3, -1] [1]).mem.read 1 < 0 := by decide

/-- add: the greatest sum of 16 bits, one beyond it, and an operand fault. -/
theorem witness_AddWritesExactSum :
    (let s := running bits16 [1101, 30000, 2767, 0] []
     problem3 .immediate .immediate .position s = none ∧
     operandValue 1 .immediate s + operandValue 2 .immediate s = 32767 ∧ inWord s.config 32767 = true) ∧
    (let s := running bits16 [1101, 30000, 2768, 0] []
     problem3 .immediate .immediate .position s = none ∧ inWord s.config 32768 = false ∧
     operandValue 1 .immediate s + operandValue 2 .immediate s = 32768) ∧
    problem3 .position .position .position (running free [1, -1, 0, 0] []) =
      some (stopped .negativeAddress 0 1 1 (-1)) := by decide

theorem witness_MulWritesExactProduct :
    (let s := running bits16 [1102, -128, 256, 0] []
     problem3 .immediate .immediate .position s = none ∧
     operandValue 1 .immediate s * operandValue 2 .immediate s = -32768 ∧ inWord s.config (-32768) = true) ∧
    (let s := running bits16 [1102, -1, -32768, 0] []
     problem3 .immediate .immediate .position s = none ∧ inWord s.config 32768 = false ∧
     operandValue 1 .immediate s * operandValue 2 .immediate s = 32768) ∧
    problem3 .position .position .position (running free [2, 0, 0, -1] []) =
      some (stopped .negativeAddress 0 2 3 (-1)) := by decide

theorem witness_InputConsumesOneValueOrBlocks :
    (running free [3, 0] []).iq = [] ∧
    (running free [3, 0] [9]).iq = [9] ∧ operandProblem 1 .position (running free [3, 0] [9]) = none ∧
    operandProblem 1 .relative (running free [203, -1] [9]) = some (stopped .negativeAddress 0 203 1 (-1)) := by decide

theorem witness_OutputAppendsOperand :
    operandProblem 1 .immediate (running queues1 [104, 2] []) = none ∧
    (running queues1 [104, 2] []).config.oqCap ≠ some (running queues1 [104, 2] []).oq.length ∧
    operandProblem 1 .immediate { running queues1 [104, 2] [] with oq := [1] } = none ∧
    ({ running queues1 [104, 2] [] with oq := [1] } : State).config.oqCap = some 1 ∧
    operandProblem 1 .position (running (cap 4) [4, 4] []) = some (stopped .memoryCapacity 0 4 1 4) := by decide

/-- The jumps: a target of 0, the least that is taken; -1, the greatest that is not; a condition of either kind. -/
theorem witness_JumpIfTrueTakesNonzero :
    (let s := running free [1105, -1, 0] []
     problem2 .immediate .immediate s = none ∧ operandValue 1 .immediate s ≠ 0 ∧ operandValue 2 .immediate s = 0) ∧
    (let s := running free [1105, 1, -1] []
     problem2 .immediate .immediate s = none ∧ operandValue 1 .immediate s ≠ 0 ∧ operandValue 2 .immediate s = -1) ∧
    (let s := running free [1105, 0, -1] []
     problem2 .immediate .immediate s = none ∧ operandValue 1 .immediate s = 0) ∧
    problem2 .immediate .position (running free [105, 0, -1] []) = some (stopped .negativeAddress 0 105 2 (-1)) := by
  decide

theorem witness_JumpIfFalseTakesZero :
    (let s := running free [1106, 0, 0] []
     problem2 .immediate .immediate s = none ∧ operandValue 1 .immediate s = 0 ∧ operandValue 2 .immediate s = 0) ∧
    (let s := running free [1106, 0, -1] []
     problem2 .immediate .immediate s = none ∧ operandValue 1 .immediate s = 0 ∧ operandValue 2 .immediate s = -1) ∧
    (let s := running free [1106, -1, -1] []
     problem2 .immediate .immediate s = none ∧ operandValue 1 .immediate s ≠ 0) ∧
    problem2 .immediate .position (running free [106, 0, -1] []) = some (stopped .negativeAddress 0 106 2 (-1)) := by
  decide

theorem witness_LessThanWritesTruth :
    problem3 .immediate .immediate .position (running free [1107, -1, 0, 0] []) = none ∧
    problem3 .immediate .immediate .position (running free [1107, 1, 2, -1] []) =
      some (stopped .negativeAddress 0 1107 3 (-1)) := by decide

theorem witness_EqualsWritesTruth :
    problem3 .immediate .immediate .position (running free [1108, 7, 7, 0] []) = none ∧
    problem3 .immediate .immediate .position (running free [1108, 1, 2, -1] []) =
      some (stopped .negativeAddress 0 1108 3 (-1)) := by decide

theorem witness_AdjustBaseAddsToBase :
    (let s : State := { running bits16 [109, 32767] [] with rb := 0 }
     operandProblem 1 .immediate s = none ∧ inWord s.config (s.rb + operandValue 1 .immediate s) = true) ∧
    (let s : State := { running bits16 [109, 32767] [] with rb := 1 }
     operandProblem 1 .immediate s = none ∧ inWord s.config (s.rb + operandValue 1 .immediate s) = false) ∧
    operandProblem 1 .relative (running free [209, -1] []) = some (stopped .negativeAddress 0 209 1 (-1)) := by decide

theorem witness_HaltStopsTheRun :
    (running free [199] []).status = .running ∧ fetchable (running free [199] []) = true ∧
    instrCode ((running free [199] []).mem.read 0) = 99 := by decide

theorem witness_ComparisonResultIsZeroOrOne :
    (let s := running bits16 [1107, -1, 0, 0] []
     exec (.lessThan .immediate .immediate .position) s =
       .next (afterExec (.lessThan .immediate .immediate .position) s) ∧
     (s.config.legal = true ∧ s.mem.wf ∧ s.status = .running ∧
      (afterExec (.lessThan .immediate .immediate .position) s).status = .running)) ∧
    (let s := running bits16 [1107, 1, 2, -1] []
     exec (.lessThan .immediate .immediate .position) s =
       .next (afterExec (.lessThan .immediate .immediate .position) s) ∧
     (s.config.legal = true ∧ s.mem.wf ∧ s.status = .running ∧
      (afterExec (.lessThan .immediate .immediate .position) s).status = .faulted)) :=
  ⟨⟨exec_after _ _, by decide⟩, ⟨exec_after _ _, by decide⟩⟩

theorem witness_ComparisonResultIsZeroOrOne_tested :
    (let s := running free [1105, 1, 0] []
     problem2 .immediate .immediate s = none ∧ operandValue 2 .immediate s = 0 ∧ operandValue 1 .immediate s = 1) ∧
    (let s := running free [1105, 0, 0] []
     problem2 .immediate .immediate s = none ∧ operandValue 2 .immediate s = 0 ∧ operandValue 1 .immediate s = 0) := by
  decide

/-- A binary instruction that stores, and one whose write target faults. -/
theorem witness_BinaryStoreFrame :
    (let s := running free [1101, 1, 1, 0] []
     let i : Instr := .add .immediate .immediate .position
     exec i s = .next (afterExec i s) ∧ writeTarget 3 .position s = .ok { addr := 0, touched := [3, 0] }) ∧
    (let s := running free [1101, 1, 1, -1] []
     let i : Instr := .add .immediate .immediate .position
     exec i s = .next (afterExec i s) ∧
     writeTarget 3 .position s = .error (stopped .negativeAddress 0 1101 3 (-1))) :=
  ⟨⟨exec_after _ _, rfl⟩, ⟨exec_after _ _, rfl⟩⟩

theorem witness_InputFrame :
    (let s := running free [3, 0] [7]
     exec (.input .position) s = .next (afterExec (.input .position) s) ∧
     writeTarget 1 .position s = .ok { addr := 0, touched := [1, 0] }) ∧
    (let s := running free [3, -1] [7]
     exec (.input .position) s = .next (afterExec (.input .position) s) ∧
     writeTarget 1 .position s = .error (stopped .negativeAddress 0 3 1 (-1))) :=
  ⟨⟨exec_after _ _, rfl⟩, ⟨exec_after _ _, rfl⟩⟩

theorem witness_NonStoringFrame :
    stores (.output .immediate) = false ∧
    exec (.output .immediate) (running free [104, 7] []) =
      .next (afterExec (.output .immediate) (running free [104, 7] [])) :=
  ⟨rfl, exec_after _ _⟩

theorem witness_StoredResultIsReadBack :
    (let s := running bits16 [21101, 1, 2, 5] [9]
     s.mem.wf ∧ problem3 .immediate .immediate .relative s = none ∧
     inWord s.config (operandValue 1 .immediate s + operandValue 2 .immediate s) = true ∧
     inWord s.config (operandValue 1 .immediate s * operandValue 2 .immediate s) = true) ∧
    (let s := running bits16 [3, 1, 2, 5] [9]
     s.mem.wf ∧ problem3 .position .immediate .relative s = none ∧ s.iq = [9]) := by decide

theorem witness_WriteIsSeenByNextFetch :
    (let s := running free [1101, 99, 0, 4, 0] []
     s.mem.wf ∧ problem3 .immediate .immediate .position s = none ∧ targetAddress 3 .position s = s.pc + 4 ∧
     operandValue 1 .immediate s + operandValue 2 .immediate s = 99 ∧ inWord s.config 99 = true ∧
     operandValue 1 .immediate s * operandValue 2 .immediate s = 0 ∧ inWord s.config 0 = true) ∧
    (let s := running free [3, 2] [99]
     s.mem.wf ∧ operandProblem 1 .position s = none ∧ targetAddress 1 .position s = s.pc + 2 ∧ s.iq = [99]) ∧
    (running free [3] []).mem.wf ∧
    writeMemory 0 104 (running free [3] []) = some { running free [3] [] with mem := [(0, 104)], memLen := 1 } := by
  decide

theorem witness_RelativeBaseHasOneWriter :
    step (running free [109, 5] []) = .next (after (running free [109, 5] [])) ∧
    (after (running free [109, 5] [])).rb ≠ (running free [109, 5] []).rb :=
  ⟨step_after _, by decide⟩

theorem witness_RelativeBaseHasOneWriter_construct :
    (let s : State := { waiting free [] [.construct [99]] with rb := 5 }
     step s = .next (after s) ∧ (after s).rb ≠ s.rb) :=
  ⟨step_after _, by decide⟩

/-- A word is added, and a word is consumed. -/
theorem witness_InputQueueIsFifo :
    (let s := waiting free [3, 0] [.addInput 7]
     step s = .next (after s) ∧ commanded s (.addInput 7) ∧ (after s).port.replies = s.port.replies ++ [.ok]) ∧
    (let s := running free [3, 0] [7]
     step s = .next (after s) ∧ executes s (.input .position) ∧ s.iq = [7] ∧ (after s).status ≠ .faulted) :=
  ⟨⟨step_after _, ⟨by decide, by decide⟩, by decide⟩,
   ⟨step_after _, ⟨rfl, by decide, by decide⟩, rfl, by decide⟩⟩

theorem witness_InputQueueIsFifo_reset :
    (let s : State := { waiting free [3, 0] [.reset] with iq := [7] }
     step s = .next (after s) ∧ commanded s .reset) :=
  ⟨step_after _, ⟨by decide, by decide⟩⟩

theorem witness_OutputQueueIsFifo :
    (let s := running free [104, 7] []
     step s = .next (after s) ∧ executes s (.output .immediate) ∧ (after s).status ≠ .faulted) ∧
    (let s : State := { waiting free [] [.popOutput] with oq := [0] }
     step s = .next (after s) ∧ commanded s .popOutput) ∧
    (let s : State := { waiting free [] [.reset] with oq := [0] }
     step s = .next (after s) ∧ commanded s .reset) ∧
    (let s : State := { running free [] [] with oq := [0] }
     step s = .next (after s) ∧ s.status = .running ∧ (after s).status = .faulted) :=
  ⟨⟨step_after _, ⟨rfl, by decide, by decide⟩, by decide⟩, ⟨step_after _, ⟨by decide, by decide⟩⟩,
   ⟨step_after _, ⟨by decide, by decide⟩⟩, ⟨step_after _, by decide⟩⟩

theorem witness_MemoryNeverShrinks :
    (let s := running free [1101, 1, 1, 9] []
     step s = .next (after s) ∧ (∀ program, ¬commanded s (.construct program)) ∧
     (after s).mem.read 9 ≠ s.mem.read 9) ∧
    (let s := running free [3, 9] [7]
     step s = .next (after s) ∧ (∀ program, ¬commanded s (.construct program)) ∧
     (after s).mem.read 9 ≠ s.mem.read 9) :=
  ⟨⟨step_after _, fun _ h => h.1 rfl, by decide⟩, ⟨step_after _, fun _ h => h.1 rfl, by decide⟩⟩

theorem witness_MemoryNeverShrinks_host :
    (let s := waiting free [99] [.writeMemory 9 7]
     step s = .next (after s) ∧ (∀ program, ¬commanded s (.construct program)) ∧
     (after s).mem.read 9 ≠ s.mem.read 9) :=
  ⟨step_after _, fun _ h => Command.noConfusion (Option.some.inj h.2), by decide⟩

theorem witness_HaltedHasOneSetter :
    (let s := running free [99] []
     step s = .next (after s) ∧ (after s).halted ≠ s.halted) ∧
    (let s : State := { waiting free [99] [.reset] with halted := true, status := .halted }
     step s = .next (after s) ∧ (after s).halted ≠ s.halted) :=
  ⟨⟨step_after _, by decide⟩, ⟨step_after _, by decide⟩⟩

theorem witness_OnlyJumpsSetComputedPc :
    exec (.jumpIfTrue .immediate .immediate) (running free [1105, 1, 0] []) =
      .next (afterExec (.jumpIfTrue .immediate .immediate) (running free [1105, 1, 0] [])) :=
  exec_after _ _

/-- A RUNNING core and a HALTED one. -/
theorem witness_ControlStateIsNotRead :
    (let s := running free [1101, 1, 1, 0] []
     let u : State := { s with halted := true, status := .halted, port := { pending := [.run], replies := [] } }
     let i : Instr := .add .immediate .immediate .position
     u = { s with halted := u.halted, status := u.status, fault := u.fault, port := u.port } ∧
     u.status ≠ s.status ∧ exec i s = .next (afterExec i s) ∧ exec i u = .next (afterExec i u)) :=
  ⟨rfl, by decide, exec_after _ _, exec_after _ _⟩

theorem witness_ConfigurationNeverChanges :
    step (waiting bits16 [] [.construct [99]]) = .next (after (waiting bits16 [] [.construct [99]])) :=
  step_after _

/-- A state for each premise of the state machine. -/
theorem witness_StatusFollowsStateMachine :
    (after (running free [99] [])).status = .halted ∧ (after (running free [3] [])).status = .blocked ∧
    (waiting free [] []).status ≠ .running ∧ (waiting free [] []).port.pending = [] := by decide

theorem witness_StatusFollowsStateMachine_commands :
    commanded (waiting free [99] [.run]) .run ∧ (waiting free [99] [.run]).status ≠ .halted ∧
    commanded { waiting free [99] [.run] with status := .halted } .run ∧
    commanded (waiting free [99] [.reset]) .reset ∧
    commanded (waiting free [] [.construct [99]]) (.construct [99]) ∧
    commanded (waiting free [] [.isHalted]) .isHalted :=
  ⟨⟨by decide, rfl⟩, by decide, ⟨by decide, rfl⟩, ⟨by decide, rfl⟩, ⟨by decide, rfl⟩, ⟨by decide, rfl⟩⟩

/-- The invariant holds of a state with every part in use, under finite parameters. -/
theorem witness_StepKeepsInvariant :
    (let s : State :=
      { running bits16 [1101, 1, 1, 0] [5] with rb := -3, oq := [0], port := { pending := [.run], replies := [.ok] } }
     Inv s ∧ step s = .next (after s)) := by
  refine ⟨?_, step_after _⟩
  constructor <;> decide

/-- Both bounds of the accepted programs, and one beyond each. -/
theorem witness_ConstructLoadsProgram :
    (∀ v ∈ [32767, -32768], inWord bits16 v = true) ∧ (cap 2).memCap = some 2 ∧ [0, 99].length ≤ 2 ∧
    inWord bits16 32768 = false ∧ 2 < [0, 0, 99].length := by decide

/-- A pending construct that is accepted, and one that is refused. -/
theorem witness_ConstructLoadsProgram_step :
    (let s := waiting (cap 2) [99] [.construct [0, 99]]
     s.status ≠ .running ∧ s.port.pending = [.construct [0, 99]] ∧ (construct s.config [0, 99]).isSome = true) ∧
    (let s := waiting (cap 2) [99] [.construct [0, 0, 99]]
     s.status ≠ .running ∧ s.port.pending = [.construct [0, 0, 99]] ∧ construct s.config [0, 0, 99] = none) := by decide

theorem witness_AddInputAppends :
    (let s := waiting bits16 [99] [.addInput 32767]
     s.status ≠ .running ∧ s.port.pending = [.addInput 32767] ∧ inWord s.config 32767 = true ∧
     s.config.iqCap ≠ some s.iq.length) ∧
    inWord (waiting bits16 [99] [.addInput 32768]).config 32768 = false ∧
    (let s : State := { waiting queues1 [99] [.addInput 2] with iq := [1] }
     s.config.iqCap = some s.iq.length) := by decide

/-- V-OUT-6: a popped 0, then none. -/
theorem witness_PopOutputIsOptional :
    (let s : State := { waiting free [99] [.popOutput] with oq := [0] }
     s.status ≠ .running ∧ s.port.pending = [.popOutput] ∧ s.oq = [0]) ∧
    (waiting free [99] [.popOutput]).oq = [] := by decide

theorem witness_IsHaltedChangesNothing :
    (waiting free [99] [.isHalted]).status ≠ .running ∧ (waiting free [99] [.isHalted]).port.pending = [.isHalted] := by
  decide

theorem witness_ReadStatusChangesNothing :
    (waiting free [99] [.readStatus]).status ≠ .running ∧
    (waiting free [99] [.readStatus]).port.pending = [.readStatus] := by decide

theorem witness_ResetKeepsMemoryAndBase :
    (let s : State := { waiting free [99] [.reset] with halted := true, status := .halted, rb := 5 }
     s.status ≠ .running ∧ s.port.pending = [.reset]) := by decide

theorem witness_RunStartsUnlessHalted :
    (waiting free [99] [.run]).port.pending = [.run] ∧ (waiting free [99] [.run]).status = .ready ∧
    ({ waiting free [99] [.run] with status := .halted } : State).status = .halted ∧
    (after (running free [3] [])).status = .blocked ∧ (after (running free [0] [])).status = .faulted := by decide

/-- The last address of an 8-cell memory, and the addresses on either side of the range. -/
theorem witness_PeekGrowsMemory :
    (waiting (cap 8) [99] [.peekMemory 7]).status ≠ .running ∧
    (waiting (cap 8) [99] [.peekMemory 7]).port.pending = [.peekMemory 7] ∧
    (waiting (cap 8) [99] [.peekMemory 7]).config.memCap = some 8 ∧ (0 : Int) ≤ 7 ∧ (7 : Int) < 8 ∧
    (waiting (cap 8) [99] [.peekMemory 8]).port.pending = [.peekMemory 8] ∧
    (waiting free [99] [.peekMemory (-1)]).port.pending = [.peekMemory (-1)] := by decide

theorem witness_WriteMemoryWritesOneCell :
    (let s := waiting bits16 [99] [.writeMemory 32767 (-32768)]
     s.status ≠ .running ∧ s.port.pending = [.writeMemory 32767 (-32768)] ∧ s.mem.wf ∧
     s.config.memCap = some 32768 ∧ inWord s.config (-32768) = true) ∧
    inWord (waiting bits16 [99] [.writeMemory 0 32768]).config 32768 = false ∧
    (waiting (cap 4) [99] [.writeMemory 4 1]).config.memCap = some 4 ∧
    (waiting free [99] [.writeMemory (-1) 1]).port.pending = [.writeMemory (-1) 1] := by decide

theorem witness_CommandsWaitWhileRunning :
    (let s : State := { running free [1101, 1, 1, 0] [] with port := { pending := [.isHalted], replies := [] } }
     s.status = .running ∧ step s = .next (after s) ∧ (after s).status = .running) :=
  ⟨rfl, step_after _, by decide⟩

theorem witness_IdleCoreWaits :
    State.reset.status ≠ .running ∧ State.reset.port.pending = [] := by decide

theorem witness_BlockedInputResumes :
    (let s : State := { running free [3, 0] [] with port := { pending := [.addInput 7, .run], replies := [] } }
     executes s (.input .position) ∧ s.iq = [] ∧ s.port.pending = [.addInput 7, .run] ∧ inWord s.config 7 = true ∧
     s.config.iqCap ≠ some 0) :=
  ⟨⟨rfl, by decide, by decide⟩, rfl, rfl, rfl, by decide⟩

theorem witness_FaultRecursOnRetry :
    (let s : State := { running free [0] [] with port := { pending := [.run], replies := [] } }
     s.status = .running ∧ step s = .next (after s) ∧ (after s).status = .faulted ∧ s.port.pending = [.run]) :=
  ⟨rfl, step_after _, by decide, rfl⟩

end Sys2Proof.Tests
end

/-! PROOFS. What a step does to memory and to L (20_memory.md R56): L never falls, and memory is either kept or written
at one address, which the instruction or the host's command names. -/

namespace Sys2Proof.Machine

/-! ### Which cell a write or a commit changes -/

theorem Memory.eq_of_read_write_ne {m : Memory} {a b : Nat} {v : Word}
    (h : (m.write a v).read b ≠ m.read b) : b = a :=
  not_imp_comm.mp (Memory.read_write_other m v) h

/-- The instructions that store, each with the address of its write target (30_encoding.md R73). -/
theorem storeAddress_eq_some_iff {i : Instr} {s : State} {a : Nat} :
    storeAddress i s = some a ↔
      (∃ m1 m2 m3, (i = .add m1 m2 m3 ∨ i = .mul m1 m2 m3 ∨ i = .lessThan m1 m2 m3 ∨ i = .equals m1 m2 m3) ∧
        a = targetAddress 3 m3 s) ∨
      ∃ m1, i = .input m1 ∧ a = targetAddress 1 m1 s := by
  cases i <;> simp [storeAddress, eq_comm]

/-- A commit keeps memory, or writes the one cell the instruction's write target names. -/
theorem Staged.commit_mem {i : Instr} {s : State} {e : Effects} (he : Staged i s e) :
    (commit e s).mem = s.mem ∨ ∃ a v, storeAddress i s = some a ∧ (commit e s).mem = s.mem.write a v := by
  cases hw : e.write with
  | none => exact .inl (by simp [hw])
  | some w =>
    obtain ⟨a, v⟩ := w
    obtain ⟨-, -, -, ha⟩ := he.writes a v hw
    exact .inr ⟨a, v, ha, by simp [hw]⟩

/-! ### A step of a RUNNING core -/

theorem step_running_memLen_le {s t : State} (hr : s.status = .running) (h : step s = .next t) :
    s.memLen ≤ t.memLen := by
  rcases step_running_cases hr h with ⟨f, rfl, -⟩ | ⟨rfl, -⟩ | ⟨rfl, -⟩ | ⟨i, e, -, rfl, -⟩
  · exact le_rfl
  · exact le_rfl
  · exact le_rfl
  · exact le_growTo s.memLen e.touched

theorem step_running_mem {s t : State} (hr : s.status = .running) (h : step s = .next t) :
    t.mem = s.mem ∨ ∃ i a v, executes s i ∧ storeAddress i s = some a ∧ t.mem = s.mem.write a v := by
  rcases step_running_cases hr h with ⟨f, rfl, -⟩ | ⟨rfl, -⟩ | ⟨rfl, -⟩ | ⟨i, e, hi, rfl, he⟩
  · exact .inl rfl
  · exact .inl rfl
  · exact .inl rfl
  · exact he.commit_mem.imp id fun ⟨a, v, ha, hm⟩ => ⟨i, a, v, hi, ha, hm⟩

/-! ### A host command that is no construct -/

theorem addInput_memory {v : Int} {s t : State} (h : addInput v s = some t) :
    t.mem = s.mem ∧ t.memLen = s.memLen := by
  unfold addInput at h
  split_ifs at h
  cases h
  exact ⟨rfl, rfl⟩

theorem peekMemory_memory {i : Int} {w : Word} {s t : State} (h : peekMemory i s = some (w, t)) :
    t.mem = s.mem ∧ s.memLen ≤ t.memLen := by
  unfold peekMemory at h
  split_ifs at h
  cases h
  exact ⟨rfl, le_max_left _ _⟩

/-- A write_memory that is accepted has an index that is an address, and writes the cell there (20_memory.md R68). -/
theorem writeMemory_memory {i v : Int} {s t : State} (h : writeMemory i v s = some t) :
    (∃ a : Nat, i = a ∧ t.mem = s.mem.write a v) ∧ s.memLen ≤ t.memLen := by
  unfold writeMemory at h
  split_ifs at h with hok
  cases h
  have hi : 0 ≤ i := by simp [hostIndexOk] at hok; omega
  exact ⟨⟨i.toNat, (Int.toNat_of_nonneg hi).symm, rfl⟩, le_max_left _ _⟩

/-- A command that is no construct keeps L or raises it, and keeps memory or is a write_memory that writes its cell. -/
theorem hostCommand_memory {c : Command} (hc : ∀ program, c ≠ .construct program) (s : State) :
    s.memLen ≤ (hostCommand c s).1.memLen ∧
      ((hostCommand c s).1.mem = s.mem ∨
        ∃ (a : Nat) (v : Int), c = .writeMemory a v ∧ (hostCommand c s).1.mem = s.mem.write a v) := by
  cases c with
  | construct program => exact absurd rfl (hc program)
  | popOutput => exact ⟨le_rfl, .inl rfl⟩
  | isHalted => exact ⟨le_rfl, .inl rfl⟩
  | reset => exact ⟨le_rfl, .inl rfl⟩
  | readStatus => exact ⟨le_rfl, .inl rfl⟩
  | run =>
    by_cases hh : s.status = .halted
    · simp [hostCommand, hh]
    · simp [hostCommand, hh]
  | addInput v =>
    cases h : addInput v s with
    | none => simp [hostCommand, acknowledge, h]
    | some t => simp [hostCommand, acknowledge, h, addInput_memory h]
  | peekMemory i =>
    cases h : peekMemory i s with
    | none => simp [hostCommand, h]
    | some r => simp [hostCommand, h, peekMemory_memory h]
  | writeMemory i v =>
    cases h : writeMemory i v s with
    | none => simp [hostCommand, acknowledge, h]
    | some t =>
      obtain ⟨⟨a, rfl, hm⟩, hl⟩ := writeMemory_memory h
      simp only [hostCommand, acknowledge, h]
      exact ⟨hl, .inr ⟨a, v, rfl, hm⟩⟩

theorem hostStep_memory {s : State} (hs : s.status ≠ .running) (hc : ∀ program, ¬commanded s (.construct program)) :
    s.memLen ≤ (hostStep s).memLen ∧
      ((hostStep s).mem = s.mem ∨
        ∃ (a : Nat) (v : Int), commanded s (.writeMemory a v) ∧ (hostStep s).mem = s.mem.write a v) := by
  cases hp : s.port.pending with
  | nil => rw [hostStep_nil hp]; exact ⟨le_rfl, .inl rfl⟩
  | cons c rest =>
    have isNext : ∀ d, c = d → commanded s d := fun d e => ⟨hs, by simp [hp, e]⟩
    obtain ⟨hl, hm⟩ := hostCommand_memory (fun program e => hc program (isNext _ e)) s
    rw [hostStep_cons hp]
    exact ⟨hl, hm.imp id fun ⟨a, v, e, hw⟩ => ⟨a, v, isNext _ e, hw⟩⟩

/-! ### The obligation -/

/-- Settles O31: an instruction's commit grows L by `growTo` and writes at most its write target, a host command that is
no construct grows L by `max` and writes at most the cell write_memory names, and a write changes its own cell only. -/
theorem memoryNeverShrinks : Obligations.MemoryNeverShrinks := by
  unfold Obligations.MemoryNeverShrinks
  intro s t h hc
  by_cases hr : s.status = .running
  · refine ⟨step_running_memLen_le hr h, fun b hb => ?_⟩
    rcases step_running_mem hr h with hm | ⟨i, a, v, hi, ha, hm⟩
    · exact absurd (by rw [hm]) hb
    · rw [hm] at hb
      obtain rfl := Memory.eq_of_read_write_ne hb
      rcases storeAddress_eq_some_iff.mp ha with ⟨m1, m2, m3, hk, hb⟩ | ⟨m1, rfl, hb⟩
      · exact .inl ⟨m1, m2, m3, by rcases hk with rfl | rfl | rfl | rfl <;> simp [hi], hb⟩
      · exact .inr (.inl ⟨m1, hi, hb⟩)
  · rw [step_host hr] at h
    cases h
    obtain ⟨hl, hm⟩ := hostStep_memory hr hc
    refine ⟨hl, fun b hb => ?_⟩
    rcases hm with hm | ⟨a, v, hcmd, hm⟩
    · exact absurd (by rw [hm]) hb
    · rw [hm] at hb
      obtain rfl := Memory.eq_of_read_write_ne hb
      exact .inr (.inr ⟨v, hcmd⟩)

end Sys2Proof.Machine

/-! PROOFS. The decoder reads its consulted digits alone (30_encoding.md R75). One congruence lemma per
decoding function, each from the mode digits that function reads; `decode_congr` assembles them over the codes of R73, for
every word. -/

namespace Sys2Proof

/-! ### The parameter count, code by code -/

theorem paramCount_eq_three {c : Nat} (h : c = 1 ∨ c = 2 ∨ c = 7 ∨ c = 8) : paramCount c = 3 := by
  rcases h with rfl | rfl | rfl | rfl <;> rfl

theorem paramCount_eq_two {c : Nat} (h : c = 5 ∨ c = 6) : paramCount c = 2 := by
  rcases h with rfl | rfl <;> rfl

theorem paramCount_eq_one {c : Nat} (h : c = 3 ∨ c = 4 ∨ c = 9) : paramCount c = 1 := by
  rcases h with rfl | rfl | rfl <;> rfl

/-! ### The decoding functions -/

/-- Two words have the same mode digits of parameters 1 to `n` (30_encoding.md R71). -/
def SameModeDigits (n : Nat) (w v : Word) : Prop :=
  ∀ k : Nat, 1 ≤ k → k ≤ n → digit w (k + 1) = digit v (k + 1)

variable {w v : Word}

theorem SameModeDigits.of_eq {n m : Nat} (h : SameModeDigits n w v) (hn : n = m) : SameModeDigits m w v :=
  hn ▸ h

theorem decodeReadMode_congr {k : Fin 4} (h : digit w (k + 1) = digit v (k + 1)) :
    decodeReadMode w k = decodeReadMode v k := by
  unfold decodeReadMode
  rw [h]

theorem decodeWriteMode_congr {k : Fin 4} (h : digit w (k + 1) = digit v (k + 1)) :
    decodeWriteMode w k = decodeWriteMode v k := by
  unfold decodeWriteMode
  rw [decodeReadMode_congr h]

theorem decodeABDst_congr (make : Mode → Mode → Mode → Instr) (h : SameModeDigits 3 w v) :
    decodeABDst make w = decodeABDst make v := by
  unfold decodeABDst
  rw [decodeReadMode_congr (k := 1) (h 1 (by decide) (by decide)),
    decodeReadMode_congr (k := 2) (h 2 (by decide) (by decide)),
    decodeWriteMode_congr (k := 3) (h 3 (by decide) (by decide))]

theorem decodeATarget_congr (make : Mode → Mode → Instr) (h : SameModeDigits 2 w v) :
    decodeATarget make w = decodeATarget make v := by
  unfold decodeATarget
  rw [decodeReadMode_congr (k := 1) (h 1 (by decide) (by decide)),
    decodeReadMode_congr (k := 2) (h 2 (by decide) (by decide))]

theorem decodeA_congr (make : Mode → Instr) (h : SameModeDigits 1 w v) : decodeA make w = decodeA make v := by
  unfold decodeA
  rw [decodeReadMode_congr (k := 1) (h 1 (by decide) (by decide))]

theorem decodeDst_congr (make : Mode → Instr) (h : SameModeDigits 1 w v) : decodeDst make w = decodeDst make v := by
  unfold decodeDst
  rw [decodeWriteMode_congr (k := 1) (h 1 (by decide) (by decide))]

/-- The decoder consults the code and the mode digits of parameters 1 to n alone (30_encoding.md R75), for words of either
sign: after the code is made one, both sides test the same codes in turn, and each test's branches agree. -/
theorem decode_congr (hc : instrCode w = instrCode v) (hd : SameModeDigits (paramCount (instrCode w)) w v) :
    decode w = decode v := by
  unfold decode
  rw [← hc]
  refine ite_congr rfl (fun h => decodeABDst_congr .add (hd.of_eq (paramCount_eq_three (.inl h)))) fun _ => ?_
  refine ite_congr rfl (fun h => decodeABDst_congr .mul (hd.of_eq (paramCount_eq_three (.inr (.inl h))))) fun _ => ?_
  refine ite_congr rfl (fun h => decodeDst_congr .input (hd.of_eq (paramCount_eq_one (.inl h)))) fun _ => ?_
  refine ite_congr rfl (fun h => decodeA_congr .output (hd.of_eq (paramCount_eq_one (.inr (.inl h))))) fun _ => ?_
  refine ite_congr rfl (fun h => decodeATarget_congr .jumpIfTrue (hd.of_eq (paramCount_eq_two (.inl h)))) fun _ => ?_
  refine ite_congr rfl (fun h => decodeATarget_congr .jumpIfFalse (hd.of_eq (paramCount_eq_two (.inr h)))) fun _ => ?_
  refine ite_congr rfl
    (fun h => decodeABDst_congr .lessThan (hd.of_eq (paramCount_eq_three (.inr (.inr (.inl h)))))) fun _ => ?_
  refine ite_congr rfl
    (fun h => decodeABDst_congr .equals (hd.of_eq (paramCount_eq_three (.inr (.inr (.inr h)))))) fun _ => ?_
  refine ite_congr rfl (fun h => decodeA_congr .adjustBase (hd.of_eq (paramCount_eq_one (.inr (.inr h))))) fun _ => ?_
  rfl

/-! ### The obligation -/

/-- Settles O54: the congruence of `decode` at two words that are not negative, the parameter counts of the codes, and one
word with digits above its three. -/
theorem decodeReadsOnlyConsultedDigits : Obligations.DecodeReadsOnlyConsultedDigits := by
  unfold Obligations.DecodeReadsOnlyConsultedDigits
  exact ⟨fun _ _ hc hd => decode_congr hc hd, rfl, fun _ => paramCount_eq_one, fun _ => paramCount_eq_two,
    fun _ => paramCount_eq_three, by decide⟩

end Sys2Proof

/-! PROOFS. The comparisons and the jumps that test them (43_compare.md R142): a comparison's word is 1 or 0, a word of
every legal width, and it is stored unless an operand faults; a conditional jump's PC says what its test answered. -/

namespace Sys2Proof.Machine

/-! ### The comparison's word -/

theorem inWord_truthWord {c : Config} (h : c.legal = true) (b : Bool) : inWord c (truthWord b) = true := by
  unfold inWord
  cases hw : c.wordBits with
  | none => rfl
  | some n =>
    have hn : 8 ≤ n := by simp [Config.legal, hw] at h; omega
    have two_le : 2 ≤ 2 ^ (n - 1) := Nat.le_self_pow (by omega) 2
    simp only [decide_eq_true_eq]
    generalize 2 ^ (n - 1) = bound at two_le ⊢
    cases b <;> simp [truthWord] <;> omega

/-! ### What a comparison answers -/

/-- An operand's fault is an address fault, never WordOverflow (60_exceptions.md R201). -/
theorem problem3_cause_ne_wordOverflow {m1 m2 m3 : Mode} {s : State} {f : FaultRecord}
    (h : problem3 m1 m2 m3 s = some f) : f.cause ≠ .wordOverflow := by
  intro hc
  have raised : Raised (.lessThan m1 m2 m3) s f := raised_of_problem3 rfl rfl rfl h
  obtain ⟨-, -, hr⟩ := raised.wordOverflow hc
  simp [exactResult] at hr

/-- The comparison shape, for any test `p`: it takes the fault of an operand, or stores the word of the test. -/
theorem storeTruth_cases {p : Word → Word → Bool} {m1 m2 m3 : Mode} {s t : State} (hm : m3 ≠ .immediate)
    (h : storeBinary (fun a b => .ok (truthWord (p a b))) m1 m2 m3 s = .next t) :
    (∃ f, t = takeFault f s ∧ f.cause ≠ .wordOverflow) ∨
      t = commit (storeEffects m1 m2 m3 (truthWord (p (operandValue 1 m1 s) (operandValue 2 m2 s))) s) s := by
  rw [storeBinary_eq _ m1 m2 hm] at h
  cases hp : problem3 m1 m2 m3 s with
  | some f => rw [hp] at h; cases h; exact .inl ⟨f, rfl, problem3_cause_ne_wordOverflow hp⟩
  | none => rw [hp] at h; cases h; exact .inr rfl

/-- The cell at dst holds the word of the test, unless a fault other than WordOverflow was taken. -/
theorem storeTruth_result {p : Word → Word → Bool} {m1 m2 m3 : Mode} {s t : State} (hm : m3 ≠ .immediate)
    (hc : s.config.legal = true) (wf : s.mem.wf) (hr : s.status = .running)
    (h : storeBinary (fun a b => .ok (truthWord (p a b))) m1 m2 m3 s = .next t) :
    (t.status = .faulted → t.fault.cause ≠ .wordOverflow) ∧
    (t.status ≠ .faulted →
      t.mem.read (targetAddress 3 m3 s) = truthWord (p (operandValue 1 m1 s) (operandValue 2 m2 s)) ∧
      inWord t.config (t.mem.read (targetAddress 3 m3 s)) = true) := by
  rcases storeTruth_cases hm h with ⟨f, rfl, hf⟩ | rfl
  · exact ⟨fun _ => hf, fun hs => absurd rfl hs⟩
  · refine ⟨fun hs => by simp [hr] at hs, fun _ => ?_⟩
    simp only [commit_mem, commit_config, storeEffects, Memory.read_write_same wf]
    exact ⟨trivial, inWord_truthWord hc _⟩

/-! ### What a conditional jump's PC says -/

theorem jumpWhen_pc {m1 m2 : Mode} {s : State} (hp : problem2 m1 m2 s = none) (ht : 0 ≤ operandValue 2 m2 s)
    (taken : Word → Bool) :
    ∃ t, jumpWhen taken m1 m2 s = .next t ∧
      (taken (operandValue 1 m1 s) = true → (t.pc : Int) = operandValue 2 m2 s) ∧
      (taken (operandValue 1 m1 s) = false → t.pc = s.pc + 3) := by
  rw [jumpWhen_eq, hp]
  cases hv : taken (operandValue 1 m1 s) with
  | true =>
    simp only [↓reduceIte, Int.not_lt.mpr ht]
    exact ⟨_, rfl, fun _ => Int.toNat_of_nonneg ht, nofun⟩
  | false => exact ⟨_, rfl, nofun, fun _ => rfl⟩

/-! ### The obligation -/

/-- Settles O22: both comparisons are the one shape with their test, whose word is legal and is read back at dst; each jump
tests the words 1 and 0 as `wordIsTrue` or its negation does. -/
theorem comparisonResultIsZeroOrOne : Obligations.ComparisonResultIsZeroOrOne := by
  unfold Obligations.ComparisonResultIsZeroOrOne
  refine ⟨fun s t m1 m2 m3 i hi hm hc wf hr h => ?_, fun s m1 m2 hp ht => ?_⟩
  · rcases hi with rfl | rfl
    · obtain ⟨hf, hw⟩ := storeTruth_result (p := fun a b => decide (a < b)) hm hc wf hr h
      refine ⟨hf, fun hs => ?_⟩
      obtain ⟨hread, hword⟩ := hw hs
      exact ⟨fun _ => by simpa [truthWord] using hread, by simp, hword⟩
    · obtain ⟨hf, hw⟩ := storeTruth_result (p := fun a b => decide (a = b)) hm hc wf hr h
      refine ⟨hf, fun hs => ?_⟩
      obtain ⟨hread, hword⟩ := hw hs
      exact ⟨by simp, fun _ => by simpa [truthWord] using hread, hword⟩
  · obtain ⟨t, hjt, taken_t, kept_t⟩ := jumpWhen_pc hp ht fun a => wordIsTrue a
    obtain ⟨f, hjf, taken_f, kept_f⟩ := jumpWhen_pc hp ht fun a => !wordIsTrue a
    exact ⟨t, f, hjt, hjf,
      fun h1 => ⟨taken_t (by rw [h1]; rfl), kept_f (by rw [h1]; rfl)⟩,
      fun h0 => ⟨kept_t (by rw [h0]; rfl), taken_f (by rw [h0]; rfl)⟩⟩

end Sys2Proof.Machine

/-! PROOFS. The host's commands (60_exceptions.md R210): when each is accepted and what it then changes, said once as
`HostEffect`, and the statements about single commands. -/

namespace Sys2Proof.Machine

/-! ### When a command is accepted -/

theorem beyondCap_eq_false_iff {c : Config} {a : Int} :
    beyondCap c a = false ↔ ∀ cap, c.memCap = some cap → a < cap := by
  unfold beyondCap
  cases c.memCap <;> simp

theorem beyondCap_eq_true_iff {c : Config} {a : Int} :
    beyondCap c a = true ↔ ∃ cap, c.memCap = some cap ∧ (cap : Int) ≤ a := by
  unfold beyondCap
  cases c.memCap <;> simp

theorem hostIndexOk_eq_true_iff {s : State} {i : Int} :
    hostIndexOk s i = true ↔ 0 ≤ i ∧ beyondCap s.config i = false := by
  simp [hostIndexOk]

theorem hostIndexOk_eq_false_iff {s : State} {i : Int} :
    hostIndexOk s i = false ↔ i < 0 ∨ beyondCap s.config i = true := by
  simp [hostIndexOk, or_iff_not_imp_left]

theorem fitsMemory_eq_true_iff {c : Config} {len : Nat} :
    fitsMemory c len = true ↔ ∀ cap, c.memCap = some cap → len ≤ cap := by
  unfold fitsMemory
  cases c.memCap <;> simp

/-- The core that construct makes (10_state.md R36). -/
def loaded (c : Config) (program : List Word) : State :=
  { State.reset with config := c, mem := Memory.ofProgram 0 program, memLen := program.length }

theorem construct_accepted {c : Config} {program : List Word} (hw : ∀ v ∈ program, inWord c v = true)
    (hf : fitsMemory c program.length = true) : construct c program = some (loaded c program) := by
  have hall : (program.all fun v => inWord c v) = true := List.all_eq_true.mpr hw
  simp [construct, hall, hf, loaded]

theorem construct_nonword {c : Config} {program : List Word} {v : Word} (hv : v ∈ program)
    (hw : inWord c v = false) : construct c program = none := by
  have hall : (program.all fun v => inWord c v) = false := List.all_eq_false.mpr ⟨v, hv, by simp [hw]⟩
  simp [construct, hall]

theorem construct_toolong {c : Config} {program : List Word} (hf : fitsMemory c program.length = false) :
    construct c program = none := by
  simp [construct, hf]

theorem construct_eq_some {c : Config} {program : List Word} {t : State} (h : construct c program = some t) :
    (∀ v ∈ program, inWord c v = true) ∧ fitsMemory c program.length = true ∧ t = loaded c program := by
  unfold construct at h
  split_ifs at h with hok
  rw [Bool.and_eq_true, List.all_eq_true] at hok
  cases h
  exact ⟨hok.1, hok.2, rfl⟩

theorem addInput_accepted {s : State} {v : Int} (hw : inWord s.config v = true)
    (hq : s.config.iqCap ≠ some s.iq.length) : addInput v s = some { s with iq := s.iq ++ [v] } := by
  simp [addInput, hw, queueFull_eq, hq]

theorem addInput_refused {s : State} {v : Int}
    (h : inWord s.config v = false ∨ s.config.iqCap = some s.iq.length) : addInput v s = none := by
  rcases h with h | h <;> simp [addInput, queueFull_eq, h]

theorem peekMemory_accepted {s : State} {i : Int} (h : hostIndexOk s i = true) :
    peekMemory i s = some (s.mem.read i.toNat, { s with memLen := max s.memLen (i.toNat + 1) }) := by
  simp [peekMemory, h]

theorem peekMemory_refused {s : State} {i : Int} (h : hostIndexOk s i = false) : peekMemory i s = none := by
  simp [peekMemory, h]

theorem writeMemory_accepted {s : State} {i v : Int} (h : hostIndexOk s i = true) (hw : inWord s.config v = true) :
    writeMemory i v s =
      some { s with memLen := max s.memLen (i.toNat + 1), mem := s.mem.write i.toNat v } := by
  simp [writeMemory, h, hw]

theorem writeMemory_refused {s : State} {i v : Int} (h : hostIndexOk s i = false ∨ inWord s.config v = false) :
    writeMemory i v s = none := by
  rcases h with h | h <;> simp [writeMemory, h]

/-! ### What a command changes -/

/-- The core `t` that a command leaves of `s`: each command's own effect, or `s` itself where the command only reads, is
refused, or finds the core HALTED (60_exceptions.md R213 to R221, 20_memory.md R67, R68, 70_reset_and_hazards.md R250,
R251). -/
inductive HostEffect (s : State) : Command → State → Prop where
  | kept (c : Command) : HostEffect s c s
  | constructed (program : List Word) (hw : ∀ v ∈ program, inWord s.config v = true)
      (hf : fitsMemory s.config program.length = true) : HostEffect s (.construct program) (loaded s.config program)
  | inputAdded (v : Int) (hw : inWord s.config v = true) (hq : s.config.iqCap ≠ some s.iq.length) :
      HostEffect s (.addInput v) { s with iq := s.iq ++ [v] }
  | outputPopped : HostEffect s .popOutput { s with oq := s.oq.tail }
  | runEntered (hs : s.status ≠ .halted) : HostEffect s .run (enterRun s)
  | wasReset : HostEffect s .reset (hostReset s)
  | peeked (i : Int) (hi : hostIndexOk s i = true) :
      HostEffect s (.peekMemory i) { s with memLen := max s.memLen (i.toNat + 1) }
  | written (i v : Int) (hi : hostIndexOk s i = true) (hw : inWord s.config v = true) :
      HostEffect s (.writeMemory i v)
        { s with memLen := max s.memLen (i.toNat + 1), mem := s.mem.write i.toNat v }

theorem hostCommand_effect (c : Command) (s : State) : HostEffect s c (hostCommand c s).1 := by
  cases c with
  | popOutput => exact .outputPopped
  | isHalted => exact .kept _
  | readStatus => exact .kept _
  | reset => exact .wasReset
  | run =>
    by_cases hs : s.status = .halted
    · simpa [hostCommand, hs] using HostEffect.kept (s := s) .run
    · simpa [hostCommand, hs] using HostEffect.runEntered hs
  | construct program =>
    cases h : construct s.config program with
    | none => simpa [hostCommand, acknowledge, h] using HostEffect.kept _
    | some t =>
      obtain ⟨hw, hf, rfl⟩ := construct_eq_some h
      simpa [hostCommand, acknowledge, h] using HostEffect.constructed program hw hf
  | addInput v =>
    by_cases h : inWord s.config v = true ∧ s.config.iqCap ≠ some s.iq.length
    · simpa [hostCommand, acknowledge, addInput_accepted h.1 h.2] using HostEffect.inputAdded v h.1 h.2
    · have hr : addInput v s = none := addInput_refused (by simpa [or_iff_not_imp_left] using h)
      simpa [hostCommand, acknowledge, hr] using HostEffect.kept _
  | peekMemory i =>
    cases h : hostIndexOk s i with
    | true => simpa [hostCommand, peekMemory_accepted h] using HostEffect.peeked i h
    | false => simpa [hostCommand, peekMemory_refused h] using HostEffect.kept _
  | writeMemory i v =>
    cases h : hostIndexOk s i with
    | false => simpa [hostCommand, acknowledge, writeMemory_refused (.inl h)] using HostEffect.kept _
    | true =>
      cases hw : inWord s.config v with
      | true => simpa [hostCommand, acknowledge, writeMemory_accepted h hw] using HostEffect.written i v h hw
      | false => simpa [hostCommand, acknowledge, writeMemory_refused (.inr hw)] using HostEffect.kept _

/-! ### The step of a core that is not RUNNING -/

theorem step_pending {s : State} {c : Command} {rest : List Command} (hs : s.status ≠ .running)
    (hp : s.port.pending = c :: rest) :
    step s = .next { (hostCommand c s).1 with
      port := { pending := rest, replies := s.port.replies ++ (hostCommand c s).2.toList } } := by
  rw [step_host hs, hostStep_cons hp]

theorem step_idle {s : State} (hs : s.status ≠ .running) (hp : s.port.pending = []) : step s = .next s := by
  rw [step_host hs, hostStep_nil hp]

/-- A pending command that is acknowledged and refused changes nothing but the port. -/
theorem step_acknowledge_none {s : State} {c : Command} {rest : List Command} (hs : s.status ≠ .running)
    (hp : s.port.pending = c :: rest) (hc : hostCommand c s = acknowledge s none) :
    step s = .next { s with port := { pending := rest, replies := s.port.replies ++ [.refused] } } := by
  rw [step_pending hs hp, hc]
  rfl

theorem step_acknowledge_some {s t : State} {c : Command} {rest : List Command} (hs : s.status ≠ .running)
    (hp : s.port.pending = c :: rest) (hc : hostCommand c s = acknowledge s (some t)) :
    step s = .next { t with port := { pending := rest, replies := s.port.replies ++ [.ok] } } := by
  rw [step_pending hs hp, hc]
  rfl

/-- Everything a step of a core that is not RUNNING can do: nothing, or the effect of the oldest pending command. -/
theorem step_host_cases {s t : State} (hs : s.status ≠ .running) (h : step s = .next t) :
    (s.port.pending = [] ∧ t = s) ∨
    ∃ c u p, commanded s c ∧ HostEffect s c u ∧ t = { u with port := p } := by
  cases hp : s.port.pending with
  | nil =>
    rw [step_idle hs hp] at h
    cases h
    exact .inl ⟨rfl, rfl⟩
  | cons c rest =>
    rw [step_pending hs hp] at h
    cases h
    exact .inr ⟨c, _, _, ⟨hs, by simp [hp]⟩, hostCommand_effect c s, rfl⟩

/-- The effect of the command that the core performs next. -/
theorem step_commanded {s t : State} {c : Command} (hc : commanded s c) (h : step s = .next t) :
    ∃ p, t = { (hostCommand c s).1 with port := p } := by
  obtain ⟨hs, hp⟩ := hc
  obtain ⟨rest, hp⟩ := List.head?_eq_some_iff.mp hp
  rw [step_pending hs hp] at h
  cases h
  exact ⟨_, rfl⟩

end Sys2Proof.Machine

/-! PROOFS. The invariant: what it needs of words, memory and capacities, that each of the core's own updates keeps it, and
that each host command does. -/

namespace Sys2Proof.Machine

/-! ### Words -/

theorem inWord_zero {c : Config} (h : c.legal = true) : inWord c 0 = true := inWord_truthWord h false

theorem inWord_one {c : Config} (h : c.legal = true) : inWord c 1 = true := inWord_truthWord h true

/-! ### Memory -/

theorem Memory.write_below {m : Memory} {n n' a : Nat} {v : Word} (h : ∀ c ∈ m, c.1 < n) (hn : n ≤ n') (ha : a < n') :
    ∀ c ∈ m.write a v, c.1 < n' := by
  intro c hc
  rcases Memory.mem_write hc with ⟨rfl, -⟩ | hc
  · exact ha
  · exact lt_of_lt_of_le (h c hc) hn

theorem Memory.write_all {m : Memory} {p : Word → Prop} {a : Nat} {v : Word} (h : ∀ c ∈ m, p c.2) (hv : p v) :
    ∀ c ∈ m.write a v, p c.2 := by
  intro c hc
  rcases Memory.mem_write hc with ⟨rfl, -⟩ | hc
  · exact hv
  · exact h c hc

/-! ### Capacities -/

theorem fitsMemory_growTo {c : Config} {len : Nat} {touched : List Nat} (hl : fitsMemory c len = true)
    (ht : ∀ a ∈ touched, beyondCap c a = false) : fitsMemory c (growTo len touched) = true := by
  rw [fitsMemory_eq_true_iff] at hl ⊢
  intro cap hc
  exact growTo_le (hl cap hc) fun a ha => Int.ofNat_lt.mp (beyondCap_eq_false_iff.mp (ht a ha) cap hc)

theorem queueFits_eq_true_iff {cap : Option Nat} {len : Nat} :
    queueFits cap len = true ↔ ∀ n, cap = some n → len ≤ n := by
  unfold queueFits
  cases cap <;> simp

theorem queueFits_mono {cap : Option Nat} {len len' : Nat} (h : queueFits cap len = true) (hl : len' ≤ len) :
    queueFits cap len' = true := by
  rw [queueFits_eq_true_iff] at h ⊢
  exact fun n hn => hl.trans (h n hn)

/-- A queue that fits and is not full has room for one more word. -/
theorem queueFits_succ {cap : Option Nat} {len : Nat} (h : queueFits cap len = true) (hq : cap ≠ some len) :
    queueFits cap (len + 1) = true := by
  rw [queueFits_eq_true_iff] at h ⊢
  intro n hn
  have hle := h n hn
  have hne : n ≠ len := by rintro rfl; exact hq hn
  omega

theorem forall_mem_append_singleton {p : Word → Prop} {l : List Word} {v : Word} (h : ∀ x ∈ l, p x) (hv : p v) :
    ∀ x ∈ l ++ [v], p x := by
  simp only [List.mem_append, List.mem_singleton]
  rintro x (hx | rfl)
  · exact h x hx
  · exact hv

/-! ### What the invariant says of single words -/

theorem Inv.read_word {s : State} (h : Inv s) (a : Nat) : inWord s.config (s.mem.read a) = true :=
  Memory.read_property (p := fun v => inWord s.config v = true) (inWord_zero h.configLegal) h.memWords a

theorem Inv.operandValue_word {s : State} (h : Inv s) (k : Fin 4) (m : Mode) :
    inWord s.config (operandValue k m s) = true := by
  unfold operandValue
  cases operandAddress k m s <;> exact h.read_word _

theorem Inv.storedWord_word {s : State} (h : Inv s) {i : Instr} {v : Word} (hv : storedWord i s v) :
    inWord s.config v = true := by
  rcases hv with hv | rfl | rfl | ⟨-, hv⟩
  · exact hv
  · exact inWord_zero h.configLegal
  · exact inWord_one h.configLegal
  · exact h.iqWords v (List.mem_of_mem_head? hv)

theorem Inv.halted_of_running {s : State} (h : Inv s) (hr : s.status = .running) : s.halted = false := by
  simp [h.haltedAgrees, hr]

theorem Inv.fault_of_running {s : State} (h : Inv s) (hr : s.status = .running) : s.fault = FaultRecord.empty :=
  h.faultEmpty (by simp [hr])

/-! ### The core's own updates -/

/-- The invariant does not speak of the port. -/
theorem Inv.setPort {s : State} (h : Inv s) (p : HostPort) : Inv { s with port := p } :=
  { h with }

theorem Inv.returnFromRun {s : State} (h : Inv s) : Inv (returnFromRun s) := h.setPort _

theorem Inv.takeFault {s : State} (h : Inv s) (hr : s.status = .running) {f : FaultRecord} (hc : f.cause ≠ .noFault)
    (hpc : f.pc = s.pc) (hw : inWord s.config f.word = true) (hv : f.wordValid = false → f.word = 0) :
    Inv (takeFault f s) :=
  { h with
    haltedAgrees := h.halted_of_running hr
    faultEmpty := fun hs => absurd rfl hs
    faultHeld := fun _ => ⟨hc, hpc⟩
    faultWord := ⟨hw, hv⟩ }

theorem Inv.takeFault_fetched {s : State} (h : Inv s) (hr : s.status = .running) {c : Cause} (hc : c ≠ .noFault)
    (k : Fin 4) (v : Int) : Inv (Machine.takeFault (faultFetched s c k v) s) :=
  h.takeFault hr hc rfl (h.read_word s.pc) nofun

theorem Inv.takeFault_unfetched {s : State} (h : Inv s) (hr : s.status = .running) {c : Cause} (hc : c ≠ .noFault)
    (v : Int) : Inv (Machine.takeFault (faultUnfetched s c v) s) :=
  h.takeFault hr hc rfl (inWord_zero h.configLegal) fun _ => rfl

theorem Inv.takeBlock {s : State} (h : Inv s) (hr : s.status = .running) : Inv (takeBlock s) :=
  { h with
    haltedAgrees := h.halted_of_running hr
    faultEmpty := fun _ => h.fault_of_running hr
    faultHeld := nofun }

theorem Inv.takeHalt {s : State} (h : Inv s) (hr : s.status = .running) : Inv (takeHalt s) :=
  { h with
    haltedAgrees := rfl
    faultEmpty := fun _ => h.fault_of_running hr
    faultHeld := nofun }

theorem Inv.enterRun {s : State} (h : Inv s) (hs : s.status ≠ .halted) : Inv (enterRun s) :=
  { h with
    haltedAgrees := by simp [h.haltedAgrees, hs]
    faultEmpty := fun _ => rfl
    faultHeld := nofun
    faultWord := ⟨inWord_zero h.configLegal, fun _ => rfl⟩ }

theorem Inv.hostReset {s : State} (h : Inv s) : Inv (hostReset s) :=
  { h with
    iqWords := nofun
    iqFits := queueFits_mono h.iqFits (Nat.zero_le _)
    haltedAgrees := rfl
    faultEmpty := fun _ => rfl
    faultHeld := nofun
    faultWord := ⟨inWord_zero h.configLegal, fun _ => rfl⟩ }

/-! ### A commit -/

theorem Inv.commit_below {i : Instr} {s : State} {e : Effects} (h : Inv s) (he : Staged i s e) :
    ∀ c ∈ (commit e s).mem, c.1 < (commit e s).memLen := by
  rw [commit_mem, commit_memLen]
  cases hw : e.write with
  | none => exact fun c hc => lt_of_lt_of_le (h.memBelowLen c hc) (le_growTo _ _)
  | some w =>
    obtain ⟨-, ha, -, -⟩ := he.writes w.1 w.2 hw
    exact Memory.write_below h.memBelowLen (le_growTo _ _) (lt_growTo ha)

theorem Inv.commit_words {i : Instr} {s : State} {e : Effects} (h : Inv s) (he : Staged i s e) :
    ∀ c ∈ (commit e s).mem, inWord s.config c.2 = true := by
  rw [commit_mem]
  cases hw : e.write with
  | none => exact h.memWords
  | some w =>
    obtain ⟨-, -, hv, -⟩ := he.writes w.1 w.2 hw
    exact Memory.write_all (p := fun v => inWord s.config v = true) h.memWords (h.storedWord_word hv)

/-- A commit keeps IQ or removes its front. -/
theorem Staged.commit_iq {i : Instr} {s : State} {e : Effects} (he : Staged i s e) :
    (commit e s).iq = s.iq ∨ (commit e s).iq = s.iq.tail := by
  rcases he.dequeues with ⟨hd, -⟩ | ⟨hd, -⟩ <;> simp [hd]

/-- A commit keeps OQ, or is an output's, which appends its operand where there is room. -/
theorem Staged.commit_oq {i : Instr} {s : State} {e : Effects} (he : Staged i s e) :
    (commit e s).oq = s.oq ∨
      ∃ m1, i = .output m1 ∧ s.config.oqCap ≠ some s.oq.length ∧ (commit e s).oq = s.oq ++ [operandValue 1 m1 s] := by
  cases hq : e.enqueue with
  | none => exact .inl (by simp [hq])
  | some v =>
    obtain ⟨m1, hi, hcap, rfl⟩ := he.enqueues v hq
    exact .inr ⟨m1, hi, hcap, by simp [hq]⟩

theorem Inv.commit_iq {i : Instr} {s : State} {e : Effects} (h : Inv s) (he : Staged i s e) :
    (∀ v ∈ (commit e s).iq, inWord s.config v = true) ∧ queueFits s.config.iqCap (commit e s).iq.length = true := by
  rcases he.commit_iq with hq | hq <;> rw [hq]
  · exact ⟨h.iqWords, h.iqFits⟩
  · exact ⟨fun v hv => h.iqWords v (List.mem_of_mem_tail hv), queueFits_mono h.iqFits (by simp)⟩

theorem Inv.commit_oq {i : Instr} {s : State} {e : Effects} (h : Inv s) (he : Staged i s e) :
    (∀ v ∈ (commit e s).oq, inWord s.config v = true) ∧ queueFits s.config.oqCap (commit e s).oq.length = true := by
  rcases he.commit_oq with hq | ⟨m1, -, hcap, hq⟩ <;> rw [hq]
  · exact ⟨h.oqWords, h.oqFits⟩
  · exact ⟨forall_mem_append_singleton h.oqWords (h.operandValue_word 1 m1),
      by simpa using queueFits_succ h.oqFits hcap⟩

theorem Inv.commit {i : Instr} {s : State} {e : Effects} (h : Inv s) (hx : executes s i) (he : Staged i s e) :
    Inv (commit e s) := by
  obtain ⟨hr, hf, -⟩ := hx
  obtain ⟨iqWords, iqFits⟩ := h.commit_iq he
  obtain ⟨oqWords, oqFits⟩ := h.commit_oq he
  have touched : ∀ a ∈ e.touched, beyondCap s.config a = false := by
    intro a ha
    rcases he.touchedFits a ha with rfl | hc
    · exact pc_fits hf
    · exact hc
  have base : inWord s.config e.rb = true := by
    rcases he.movesBase with hb | ⟨-, hb⟩
    · rw [hb]; exact h.rbWord
    · exact hb
  exact { h with
    memCanonical := commit_mem_wf h.memCanonical e
    memBelowLen := h.commit_below he
    memWords := h.commit_words he
    lenFits := fitsMemory_growTo h.lenFits touched
    rbWord := base
    iqWords := iqWords
    iqFits := iqFits
    oqWords := oqWords
    oqFits := oqFits
    faultHeld := fun hs => by simp [hr] at hs }

/-! ### A step of a RUNNING core -/

theorem Inv.decodeFault {s : State} (h : Inv s) (hr : s.status = .running) (e : DecodeError) :
    Inv (Machine.takeFault (decodeFault s e) s) := by
  cases e <;> exact h.takeFault_fetched hr (by simp) _ _

theorem Inv.step_running {s t : State} (h : Inv s) (hr : s.status = .running) (hstep : step s = .next t) : Inv t := by
  rcases step_running_cases hr hstep with ⟨f, rfl, hf⟩ | ⟨rfl, -⟩ | ⟨rfl, -⟩ | ⟨i, e, hx, rfl, he⟩
  · refine Inv.returnFromRun ?_
    rcases hf with ⟨-, rfl⟩ | ⟨-, -, rfl⟩ | ⟨-, e, -, rfl⟩ | ⟨i, -, hraised⟩
    · exact h.takeFault_unfetched hr (by simp) _
    · exact h.takeFault_unfetched hr (by simp) _
    · exact h.decodeFault hr e
    · obtain ⟨c, k, v, rfl, hc, -⟩ := hraised.ofInstruction
      exact h.takeFault_fetched hr hc k v
  · exact (h.takeBlock hr).returnFromRun
  · exact (h.takeHalt hr).returnFromRun
  · exact (h.commit hx he).returnFromRun

/-! ### The host's commands -/

theorem inv_reset : Inv State.reset := by
  constructor <;> decide

theorem inv_loaded {c : Config} {program : List Word} (hc : c.legal = true) (hw : ∀ v ∈ program, inWord c v = true)
    (hf : fitsMemory c program.length = true) : Inv (loaded c program) where
  configLegal := hc
  memCanonical := Memory.ofProgram_wf 0 program
  memBelowLen := fun d hd => by have := (Memory.mem_ofProgram hd).2.1; simpa [loaded] using this
  memWords := fun d hd => hw d.2 (Memory.mem_ofProgram hd).2.2.1
  lenFits := hf
  rbWord := inWord_zero hc
  iqWords := nofun
  iqFits := queueFits_eq_true_iff.mpr fun _ _ => Nat.zero_le _
  oqWords := nofun
  oqFits := queueFits_eq_true_iff.mpr fun _ _ => Nat.zero_le _
  haltedAgrees := rfl
  faultEmpty := fun _ => rfl
  faultHeld := nofun
  faultWord := ⟨inWord_zero hc, fun _ => rfl⟩

/-- An index the host may reach, covered by L, leaves L within the capacity (20_memory.md R67). -/
theorem Inv.lenFits_index {s : State} (h : Inv s) {i : Int} (hi : hostIndexOk s i = true) :
    fitsMemory s.config (max s.memLen (i.toNat + 1)) = true := by
  obtain ⟨hn, hb⟩ := hostIndexOk_eq_true_iff.mp hi
  exact fitsMemory_growTo (touched := [i.toNat]) h.lenFits (by simp [Int.toNat_of_nonneg hn, hb])

theorem Inv.hostEffect {s t : State} {c : Command} (h : Inv s) (he : HostEffect s c t) : Inv t := by
  cases he with
  | kept => exact h
  | constructed program hw hf => exact inv_loaded h.configLegal hw hf
  | inputAdded v hw hq =>
    exact { h with
      iqWords := forall_mem_append_singleton h.iqWords hw
      iqFits := by simpa using queueFits_succ h.iqFits hq }
  | outputPopped =>
    exact { h with
      oqWords := fun v hv => h.oqWords v (List.mem_of_mem_tail hv)
      oqFits := queueFits_mono h.oqFits (by simp) }
  | runEntered hs => exact h.enterRun hs
  | wasReset => exact h.hostReset
  | peeked i hi =>
    exact { h with
      memBelowLen := fun c hc => lt_of_lt_of_le (h.memBelowLen c hc) (le_max_left _ _)
      lenFits := h.lenFits_index hi }
  | written i v hi hw =>
    exact { h with
      memCanonical := Memory.write_wf h.memCanonical _ _
      memBelowLen := Memory.write_below h.memBelowLen (le_max_left _ _) (lt_max_of_lt_right (Nat.lt_succ_self _))
      memWords := Memory.write_all (p := fun v => inWord s.config v = true) h.memWords hw
      lenFits := h.lenFits_index hi }

/-! ### The obligations -/

/-- Settles O38: each clause is a closed fact about the reset state. -/
theorem resetStateMeetsInvariant : Obligations.ResetStateMeetsInvariant := inv_reset

/-- Settles O39: a RUNNING core takes a fault, blocks, halts or commits, any other performs a command or waits, and each of
these keeps the invariant. -/
theorem stepKeepsInvariant : Obligations.StepKeepsInvariant := by
  unfold Obligations.StepKeepsInvariant
  intro s t h hstep
  by_cases hr : s.status = .running
  · exact h.step_running hr hstep
  · rcases step_host_cases hr hstep with ⟨-, rfl⟩ | ⟨c, u, p, -, he, rfl⟩
    · exact h
    · exact (h.hostEffect he).setPort p

end Sys2Proof.Machine

/-! PROOFS. The statements about single host commands: each is `step_pending` with the command's own acceptance. -/

namespace Sys2Proof.Machine

/-! ### construct (70_reset_and_hazards.md R250) -/

theorem fitsMemory_eq_false {c : Config} {len cap : Nat} (hc : c.memCap = some cap) (h : cap < len) :
    fitsMemory c len = false := by
  simp [fitsMemory, hc, h]

/-- Settles O40: construct of no words under the unbounded parameters computes to the reset state. -/
theorem resetStateIsEmptyConstruct : Obligations.ResetStateIsEmptyConstruct := by
  unfold Obligations.ResetStateIsEmptyConstruct
  exact ⟨by decide, rfl, rfl, rfl, rfl, rfl, rfl, rfl, rfl, rfl, fun _ => rfl⟩

/-- Settles O41: an accepted construct is `loaded`, whose memory reads the program, and the port records what construct
answered. -/
theorem constructLoadsProgram : Obligations.ConstructLoadsProgram := by
  unfold Obligations.ConstructLoadsProgram
  refine ⟨fun c program => ⟨fun hw hf => ?_, fun v hv hw => construct_nonword hv hw,
    fun cap hc hl => construct_toolong (fitsMemory_eq_false hc hl)⟩, fun s program rest hs hp => ⟨fun t ht => ?_,
    fun hn => ?_⟩⟩
  · exact ⟨loaded c program, construct_accepted hw (fitsMemory_eq_true_iff.mpr hf), Memory.ofProgram_wf 0 program,
      fun a => by simpa [loaded] using Memory.read_ofProgram 0 program a, rfl, rfl, rfl, rfl, rfl, rfl, rfl, rfl, rfl⟩
  · exact step_acknowledge_some hs hp (congrArg (acknowledge s) ht)
  · exact step_acknowledge_none hs hp (congrArg (acknowledge s) hn)

/-! ### The queues (60_exceptions.md R213, R214) -/

/-- Settles O42: the port records what `addInput` answered. -/
theorem addInputAppends : Obligations.AddInputAppends := by
  unfold Obligations.AddInputAppends
  intro s v rest hs hp
  exact ⟨fun hw hq => step_acknowledge_some hs hp (congrArg (acknowledge s) (addInput_accepted hw hq)),
    fun h => step_acknowledge_none hs hp (congrArg (acknowledge s) (addInput_refused h))⟩

/-- Settles O43: head and tail of OQ, in its two cases. -/
theorem popOutputIsOptional : Obligations.PopOutputIsOptional := by
  unfold Obligations.PopOutputIsOptional
  intro s rest hs hp
  rw [step_pending hs hp]
  exact ⟨fun v oq' h => by simp [hostCommand, popOutput, h], fun h => by simp [hostCommand, popOutput, h]⟩

/-! ### The commands that read (60_exceptions.md R215, R221) -/

/-- Settles O44: the command's effect is the state itself. -/
theorem isHaltedChangesNothing : Obligations.IsHaltedChangesNothing := by
  unfold Obligations.IsHaltedChangesNothing
  exact fun s rest hs hp => step_pending hs hp

/-- Settles O45: the command's effect is the state itself. -/
theorem readStatusChangesNothing : Obligations.ReadStatusChangesNothing := by
  unfold Obligations.ReadStatusChangesNothing
  exact fun s rest hs hp => step_pending hs hp

/-! ### reset and run (70_reset_and_hazards.md R251, 60_exceptions.md R216, R218) -/

/-- Settles O46: the step performs `hostReset`, in any status but RUNNING. -/
theorem resetKeepsMemoryAndBase : Obligations.ResetKeepsMemoryAndBase := by
  unfold Obligations.ResetKeepsMemoryAndBase
  exact fun s rest hs hp => step_pending hs hp

theorem hostCommand_run_halted {s : State} (h : s.status = .halted) :
    hostCommand .run s = (s, some (.stopped .halted)) := by
  simp [hostCommand, h]

theorem hostCommand_run {s : State} (h : s.status ≠ .halted) : hostCommand .run s = (enterRun s, none) := by
  simp [hostCommand, h]

/-- A pending run on a core that is neither RUNNING nor HALTED starts a run at the PC it has. -/
theorem step_run {s : State} {rest : List Command} (hp : s.port.pending = .run :: rest) (hr : s.status ≠ .running)
    (hh : s.status ≠ .halted) :
    step s = .next { s with
      fault := FaultRecord.empty, status := .running, port := { pending := rest, replies := s.port.replies } } := by
  rw [step_pending hr hp, hostCommand_run hh]
  simp [enterRun]

/-- Settles O47: run on a HALTED core is answered at once, on any other it is `enterRun`. -/
theorem runStartsUnlessHalted : Obligations.RunStartsUnlessHalted := by
  unfold Obligations.RunStartsUnlessHalted
  intro s rest hp
  refine ⟨fun h => ?_, fun h => ?_⟩
  · rw [step_pending (by simp [h]) hp, hostCommand_run_halted h]
    rfl
  · exact step_run hp (by rcases h with h | h | h <;> simp [h]) (by rcases h with h | h | h <;> simp [h])

/-! ### The memory port (20_memory.md R67, R68) -/

theorem hostIndexOk_of_bounds {s : State} {i : Int} (hi : 0 ≤ i) (hc : ∀ cap, s.config.memCap = some cap → i < cap) :
    hostIndexOk s i = true :=
  hostIndexOk_eq_true_iff.mpr ⟨hi, beyondCap_eq_false_iff.mpr hc⟩

theorem hostIndexOk_out_of_bounds {s : State} {i : Int}
    (h : i < 0 ∨ ∃ cap, s.config.memCap = some cap ∧ (cap : Int) ≤ i) : hostIndexOk s i = false :=
  hostIndexOk_eq_false_iff.mpr (h.imp id beyondCap_eq_true_iff.mpr)

/-- Settles O48: the two bounds of the index decide whether `peekMemory` answers. -/
theorem peekGrowsMemory : Obligations.PeekGrowsMemory := by
  unfold Obligations.PeekGrowsMemory
  intro s i rest hs hp
  rw [step_pending hs hp]
  refine ⟨fun hi hc => ?_, fun h => ?_⟩
  · simp [hostCommand, peekMemory_accepted (hostIndexOk_of_bounds hi hc)]
  · simp [hostCommand, peekMemory_refused (hostIndexOk_out_of_bounds h)]

/-- Settles O49: the write is the memory's own, which reads back at its address and keeps every other cell. -/
theorem writeMemoryWritesOneCell : Obligations.WriteMemoryWritesOneCell := by
  unfold Obligations.WriteMemoryWritesOneCell
  intro s i v rest hs hp wf
  refine ⟨fun hi hc hw => ⟨?_, fun a => ?_⟩, fun h => ?_⟩
  · exact step_acknowledge_some hs hp
      (congrArg (acknowledge s) (writeMemory_accepted (hostIndexOk_of_bounds hi hc) hw))
  · have hai : (a : Int) = i ↔ a = i.toNat := by omega
    simp only [Memory.read_write wf, hai]
  · have refused := (or_assoc.mpr h).imp hostIndexOk_out_of_bounds id
    exact step_acknowledge_none hs hp (congrArg (acknowledge s) (writeMemory_refused refused))

/-! ### No command -/

/-- Settles O51: `hostStep` with nothing pending is the identity. -/
theorem idleCoreWaits : Obligations.IdleCoreWaits := by
  unfold Obligations.IdleCoreWaits
  exact fun s hs hp => step_idle hs hp

end Sys2Proof.Machine

/-! PROOFS. The decoder, exactly: a word decodes to an instruction when its code and mode digits are the instruction's, so
that it is the encoding with any digits above; and it is rejected by the first parameter whose mode digit is bad. -/

namespace Sys2Proof

/-! ### The words of an instruction -/

/-- The digits of `w` from the `k`-th up are the mode digits of `ms`. -/
def ModeDigitsFrom (w : Word) : Nat → List Mode → Prop
  | _, [] => True
  | k, m :: ms => digit w k = modeDigit m ∧ ModeDigitsFrom w (k + 1) ms

/-- A word decodes to an instruction exactly when its code and the mode digits of its parameters are the instruction's, and
the write target is not immediate (30_encoding.md R71, R73, R76). -/
theorem decode_eq_ok_iff {w : Word} {i : Instr} :
    decode w = .ok i ↔ instrCode w = codeOf i ∧ i.wellFormed = true ∧ ModeDigitsFrom w 2 (modesOf i) := by
  by_cases hc : instrCode w = codeOf i
  · cases i <;>
      simp [decode, hc, codeOf, modesOf, ModeDigitsFrom, Instr.wellFormed, decodeABDst_ok, decodeATarget_ok,
        decodeA_ok, decodeDst_ok, Mode.writable_eq_true, and_comm, and_left_comm]
  · exact ⟨fun h => absurd (decode_ok_code h).1 hc, fun h => absurd h.1 hc⟩

/-! ### Digits and the encoding -/

theorem modeDigit_lt (m : Mode) : modeDigit m < 10 := by cases m <;> decide

theorem digit_eq_iff {w : Int} {k d : Nat} : digit w k = d ↔ w / 10 ^ k % 10 = d := by
  have := Int.emod_nonneg (w / 10 ^ k) (show (10 : Int) ≠ 0 by decide)
  unfold digit
  omega

theorem instrCode_eq_iff {w : Int} {c : Nat} : instrCode w = c ↔ w % 100 = c := by
  have := Int.emod_nonneg w (show (100 : Int) ≠ 0 by decide)
  unfold instrCode
  omega

/-- Dropping the digits below the `k`-th and the `k`-th itself, one after the other. -/
theorem ediv_pow_succ (w : Int) (k : Nat) : w / 10 ^ (k + 1) = w / 10 ^ k / 10 := by
  rw [pow_succ, Int.ediv_ediv_of_nonneg (by positivity)]

/-- The digits of `w` from the `k`-th up are those of `ms`, and anything above. -/
theorem modeDigitsFrom_iff {w : Int} {k : Nat} {ms : List Mode} :
    ModeDigitsFrom w k ms ↔ ∃ high : Int, w / 10 ^ k = encodeModes ms + high * 10 ^ ms.length := by
  induction ms generalizing k with
  | nil => simp [ModeDigitsFrom, encodeModes]
  | cons m ms ih =>
    rw [ModeDigitsFrom, ih, digit_eq_iff, ediv_pow_succ, encodeModes, List.length_cons]
    have hm := modeDigit_lt m
    constructor
    · rintro ⟨hd, high, hh⟩
      exact ⟨high, by rw [pow_succ, ← mul_assoc]; omega⟩
    · rintro ⟨high, hh⟩
      rw [pow_succ, ← mul_assoc] at hh
      exact ⟨by omega, high, by omega⟩

theorem codeOf_lt (i : Instr) : codeOf i < 100 := by cases i <;> simp [codeOf]

/-- Settles O2: the code is the remainder by 100, and the mode digits say what the quotient is, up to a multiple of the power
of 10 above them. -/
theorem decodeEncodeAgree : Obligations.DecodeEncodeAgree := by
  unfold Obligations.DecodeEncodeAgree
  intro w i
  rw [decode_eq_ok_iff, instrCode_eq_iff, modeDigitsFrom_iff, and_left_comm]
  refine and_congr_right fun _ => ?_
  have hc := codeOf_lt i
  unfold encode Word at *
  constructor
  · rintro ⟨hw, high, hh⟩
    exact ⟨high, by rw [pow_add, mul_left_comm]; omega⟩
  · rintro ⟨high, hh⟩
    rw [pow_add, mul_left_comm] at hh
    exact ⟨by omega, high, by omega⟩

/-- Settles O1: twelve closed words. -/
theorem specWordsDecode : Obligations.SpecWordsDecode := by
  unfold Obligations.SpecWordsDecode
  decide

/-! ### Digits that are not consulted -/

theorem digit_add_mul_pow (w high : Int) {k n : Nat} (h : k < n) : digit (w + high * 10 ^ n) k = digit w k := by
  obtain ⟨m, rfl⟩ := Nat.exists_eq_add_of_lt h
  have split : high * 10 ^ (k + m + 1) = 10 ^ k * (10 * (high * 10 ^ m)) := by ring
  unfold digit
  rw [split, Int.add_mul_ediv_left _ _ (by positivity), Int.add_mul_emod_self_left]

theorem instrCode_add_mul_pow (w high : Int) (n : Nat) : instrCode (w + high * 10 ^ (2 + n)) = instrCode w := by
  have split : high * 10 ^ (2 + n) = 100 * (high * 10 ^ n) := by ring
  unfold instrCode
  rw [split, Int.add_mul_emod_self_left]

/-- Settles O4: what is added above the consulted digits changes neither the code nor a consulted digit. -/
theorem unconsultedDigitsAreIgnored : Obligations.UnconsultedDigitsAreIgnored := by
  unfold Obligations.UnconsultedDigitsAreIgnored
  refine ⟨fun w high => ?_, fun _ => rfl, by decide⟩
  have hc := instrCode_add_mul_pow w high (paramCount (instrCode w))
  refine decode_congr hc fun k _ hk => ?_
  rw [hc] at hk
  exact digit_add_mul_pow w high (by omega)

/-! ### The first defect -/

/-- Parameter `k` of `w` has a bad mode digit, named by `e`; `target` is the number of the write target
(30_encoding.md R76). -/
def Defect (w : Word) (target : Nat) (k : Fin 4) (e : DecodeError) : Prop :=
  (3 ≤ digit w (k.val + 1) ∧ e = .invalidMode k (digit w (k.val + 1))) ∨
  (k.val = target ∧ digit w (k.val + 1) = 1 ∧ e = .immediateWrite k)

/-- Parameter `k` of `w` has a mode digit it may have. -/
def Sound (w : Word) (target : Nat) (k : Fin 4) : Prop :=
  digit w (k.val + 1) ≤ 2 ∧ ¬(k.val = target ∧ digit w (k.val + 1) = 1)

/-- `e` names the first of the parameters 1 to `n`, in order, whose mode digit is bad (30_encoding.md R92). -/
def FirstDefect (w : Word) (n target : Nat) (e : DecodeError) : Prop :=
  ∃ k : Fin 4, 1 ≤ k.val ∧ k.val ≤ n ∧ (∀ j : Fin 4, 1 ≤ j.val → j.val < k.val → Sound w target j) ∧
    Defect w target k e

variable {w : Word} {e : DecodeError} {target : Nat}

theorem firstDefect_zero : ¬FirstDefect w 0 target e := by
  rintro ⟨k, h1, h0, -⟩
  omega

theorem exists_param {p : Fin 4 → Prop} : (∃ k : Fin 4, 1 ≤ k.val ∧ p k) ↔ p 1 ∨ p 2 ∨ p 3 := by
  simp [Fin.exists_fin_succ]

theorem forall_param {p : Fin 4 → Prop} : (∀ k : Fin 4, 1 ≤ k.val → p k) ↔ p 1 ∧ p 2 ∧ p 3 := by
  simp [Fin.forall_fin_succ]

theorem firstDefect_one : FirstDefect w 1 target e ↔ Defect w target 1 e := by
  simp [FirstDefect, exists_param, forall_param]

theorem firstDefect_two : FirstDefect w 2 target e ↔ Defect w target 1 e ∨ Sound w target 1 ∧ Defect w target 2 e := by
  simp [FirstDefect, exists_param, forall_param]

theorem firstDefect_three :
    FirstDefect w 3 target e ↔
      Defect w target 1 e ∨ Sound w target 1 ∧ Defect w target 2 e ∨
        Sound w target 1 ∧ Sound w target 2 ∧ Defect w target 3 e := by
  simp [FirstDefect, exists_param, forall_param, and_assoc]

/-! ### What each decoding shape rejects -/

theorem decodeReadMode_eq_ok {k : Fin 4} : (∃ m, decodeReadMode w k = .ok m) ↔ digit w (k + 1) ≤ 2 := by
  cases h : decodeReadMode w k with
  | ok m => have := decodeReadMode_ok.mp h; cases m <;> simp [this, modeDigit]
  | error e =>
    have := decodeReadMode_error.mp h
    simp only [reduceCtorEq, exists_false, false_iff]
    omega

theorem decodeReadMode_sound {k : Fin 4} (hk : k.val ≠ target) :
    (∃ m, decodeReadMode w k = .ok m) ↔ Sound w target k := by
  simp [decodeReadMode_eq_ok, Sound, hk]

theorem decodeReadMode_defect {k : Fin 4} (hk : k.val ≠ target) :
    decodeReadMode w k = .error e ↔ Defect w target k e := by
  simp [decodeReadMode_error, Defect, hk]

theorem decodeWriteMode_defect {k : Fin 4} (hk : k.val = target) :
    decodeWriteMode w k = .error e ↔ Defect w target k e := by
  simp [decodeWriteMode_error, Defect, hk]

theorem decodeA_error {make : Mode → Instr} : decodeA make w = .error e ↔ FirstDefect w 1 0 e := by
  rw [firstDefect_one, ← decodeReadMode_defect (by decide), decodeA]
  cases decodeReadMode w 1 <;> simp

theorem decodeDst_error {make : Mode → Instr} : decodeDst make w = .error e ↔ FirstDefect w 1 1 e := by
  rw [firstDefect_one, ← decodeWriteMode_defect (by decide), decodeDst]
  cases decodeWriteMode w 1 <;> simp

theorem decodeATarget_error {make : Mode → Mode → Instr} : decodeATarget make w = .error e ↔ FirstDefect w 2 0 e := by
  rw [firstDefect_two, ← decodeReadMode_defect (by decide), ← decodeReadMode_defect (by decide),
    ← decodeReadMode_sound (by decide), decodeATarget]
  cases decodeReadMode w 1 with
  | error e1 => simp
  | ok m1 => cases decodeReadMode w 2 <;> simp

theorem decodeABDst_error {make : Mode → Mode → Mode → Instr} :
    decodeABDst make w = .error e ↔ FirstDefect w 3 3 e := by
  rw [firstDefect_three, ← decodeReadMode_defect (by decide), ← decodeReadMode_defect (by decide),
    ← decodeReadMode_sound (by decide), ← decodeReadMode_sound (by decide), ← decodeWriteMode_defect (by decide), decodeABDst]
  cases decodeReadMode w 1 with
  | error e1 => simp
  | ok m1 =>
    cases decodeReadMode w 2 with
    | error e2 => simp
    | ok m2 => cases decodeWriteMode w 3 <;> simp

theorem codeDefined_eq_true_iff {c : Nat} :
    codeDefined c = true ↔ (c = 1 ∨ c = 2 ∨ c = 7 ∨ c = 8) ∨ (c = 5 ∨ c = 6) ∨ (c = 4 ∨ c = 9) ∨ c = 3 ∨ c = 99 := by
  simp only [codeDefined, decide_eq_true_eq]
  omega

theorem decode_undefined (h : codeDefined (instrCode w) = false) : decode w = .error .invalidOpcode := by
  simp only [Bool.eq_false_iff, ne_eq, codeDefined_eq_true_iff, not_or] at h
  simp [decode, h]

/-- A word of a defined code is rejected for the first parameter with a bad mode digit. -/
theorem decode_defined_error_iff (h : codeDefined (instrCode w) = true) :
    decode w = .error e ↔ FirstDefect w (paramCount (instrCode w)) (writeParam (instrCode w)) e := by
  rcases codeDefined_eq_true_iff.mp h with h | h | h | h | h
  · rcases h with h | h | h | h <;> simp [decode, h, paramCount, writeParam, decodeABDst_error]
  · rcases h with h | h <;> simp [decode, h, paramCount, writeParam, decodeATarget_error]
  · rcases h with h | h <;> simp [decode, h, paramCount, writeParam, decodeA_error]
  · simp [decode, h, paramCount, writeParam, decodeDst_error]
  · simp [decode, h, paramCount, writeParam, firstDefect_zero]

/-- The decoder rejects a word for its code, or for the first parameter with a bad mode digit (30_encoding.md R92). -/
theorem decode_eq_error_iff :
    decode w = .error e ↔
      (codeDefined (instrCode w) = false ∧ e = .invalidOpcode) ∨
      (codeDefined (instrCode w) = true ∧ FirstDefect w (paramCount (instrCode w)) (writeParam (instrCode w)) e) := by
  cases h : codeDefined (instrCode w) with
  | false => simp [decode_undefined h, eq_comm]
  | true => simp [decode_defined_error_iff h]

/-- Settles O3: `FirstDefect` is the statement's description of the first bad parameter. -/
theorem decodeRejectsByFirstDefect : Obligations.DecodeRejectsByFirstDefect := by
  unfold Obligations.DecodeRejectsByFirstDefect
  exact fun w e => decode_eq_error_iff

/-! ### Codes that stand for no instruction, and halt -/

theorem instrCode_lt (w : Word) : instrCode w < 100 := by
  unfold instrCode Word at *
  omega

theorem codeDefined_eq_false_iff {c : Nat} (hc : c < 100) :
    codeDefined c = false ↔ c = 0 ∨ (10 ≤ c ∧ c ≤ 98) := by
  simp only [codeDefined, decide_eq_false_iff_not]
  omega

/-- A code is illegal exactly when the decoder says InvalidOpcode (30_encoding.md R74). -/
theorem decode_invalidOpcode_iff :
    decode w = .error .invalidOpcode ↔ instrCode w = 0 ∨ (10 ≤ instrCode w ∧ instrCode w ≤ 98) := by
  have other : ∀ n target, ¬FirstDefect w n target .invalidOpcode := by
    rintro n target ⟨k, -, -, -, ⟨-, hd⟩ | ⟨-, -, hd⟩⟩ <;> cases hd
  simp [decode_eq_error_iff, other, codeDefined_eq_false_iff (instrCode_lt w)]

theorem decode_halt_iff : decode w = .ok .halt ↔ instrCode w = 99 := by
  simp [decode_eq_ok_iff, codeOf, modesOf, Instr.wellFormed, ModeDigitsFrom]

end Sys2Proof

/-! PROOFS. The instructions, one by one: the words that decode to each, and what `exec` answers in each of its cases. The
cases of the shared shapes (the three-parameter store, the conditional jump) are said once, for any function of the operands
and any test. -/

namespace Sys2Proof

/-! ### The words of an instruction, by its parameters -/

variable {w : Word} {i : Instr} {m1 m2 m3 : Mode}

theorem decode_ok_three (hl : modesOf i = [m1, m2, m3]) (hw : i.wellFormed = m3.writable) :
    decode w = .ok i ↔
      instrCode w = codeOf i ∧ digit w 2 = modeDigit m1 ∧ digit w 3 = modeDigit m2 ∧ digit w 4 = modeDigit m3 ∧
        m3 ≠ .immediate := by
  simp only [decode_eq_ok_iff, hl, hw, ModeDigitsFrom, Mode.writable_eq_true]
  tauto

theorem decode_ok_two (hl : modesOf i = [m1, m2]) (hw : i.wellFormed = true) :
    decode w = .ok i ↔ instrCode w = codeOf i ∧ digit w 2 = modeDigit m1 ∧ digit w 3 = modeDigit m2 := by
  simp [decode_eq_ok_iff, hl, hw, ModeDigitsFrom]

theorem decode_ok_one (hl : modesOf i = [m1]) (hw : i.wellFormed = true) :
    decode w = .ok i ↔ instrCode w = codeOf i ∧ digit w 2 = modeDigit m1 := by
  simp [decode_eq_ok_iff, hl, hw, ModeDigitsFrom]

theorem decode_input : decode w = .ok (.input m1) ↔ instrCode w = 3 ∧ digit w 2 = modeDigit m1 ∧ m1 ≠ .immediate := by
  simp [decode_eq_ok_iff, codeOf, modesOf, Instr.wellFormed, ModeDigitsFrom, Mode.writable_eq_true, and_comm]

end Sys2Proof

namespace Sys2Proof.Machine

variable {s : State} {m1 m2 m3 : Mode}

/-! ### The three-parameter store -/

theorem storeBinary_stores {f : Word → Word → Except FaultRecord Word} {r : Word} (hm : m3 ≠ .immediate)
    (hp : problem3 m1 m2 m3 s = none) (hf : f (operandValue 1 m1 s) (operandValue 2 m2 s) = .ok r) :
    storeBinary f m1 m2 m3 s = .next { s with
      mem := s.mem.write (targetAddress 3 m3 s) r, memLen := growTo s.memLen (touched3 m1 m2 m3 s), pc := s.pc + 4 } := by
  rw [storeBinary_eq f m1 m2 hm, hp]
  simp only [hf]
  rfl

theorem storeBinary_raises {f : Word → Word → Except FaultRecord Word} {p : FaultRecord} (hm : m3 ≠ .immediate)
    (hp : problem3 m1 m2 m3 s = none) (hf : f (operandValue 1 m1 s) (operandValue 2 m2 s) = .error p) :
    storeBinary f m1 m2 m3 s = .next { s with fault := p, status := .faulted } := by
  rw [storeBinary_eq f m1 m2 hm, hp]
  simp only [hf]
  rfl

theorem storeBinary_problem {f : Word → Word → Except FaultRecord Word} {p : FaultRecord} (hm : m3 ≠ .immediate)
    (hp : problem3 m1 m2 m3 s = some p) :
    storeBinary f m1 m2 m3 s = .next { s with fault := p, status := .faulted } := by
  rw [storeBinary_eq f m1 m2 hm, hp]
  rfl

/-! The shape of each instruction that has one. -/

theorem exec_add (m1 m2 m3 : Mode) (s : State) :
    exec (.add m1 m2 m3) s = storeBinary (fun a b => checkWord (a + b) s) m1 m2 m3 s := rfl

theorem exec_mul (m1 m2 m3 : Mode) (s : State) :
    exec (.mul m1 m2 m3) s = storeBinary (fun a b => checkWord (a * b) s) m1 m2 m3 s := rfl

theorem exec_lessThan (m1 m2 m3 : Mode) (s : State) :
    exec (.lessThan m1 m2 m3) s = storeBinary (fun a b => .ok (truthWord (decide (a < b)))) m1 m2 m3 s := rfl

theorem exec_equals (m1 m2 m3 : Mode) (s : State) :
    exec (.equals m1 m2 m3) s = storeBinary (fun a b => .ok (truthWord (decide (a = b)))) m1 m2 m3 s := rfl

theorem exec_jumpIfTrue (m1 m2 : Mode) (s : State) :
    exec (.jumpIfTrue m1 m2) s = jumpWhen (fun a => wordIsTrue a) m1 m2 s := rfl

theorem exec_jumpIfFalse (m1 m2 : Mode) (s : State) :
    exec (.jumpIfFalse m1 m2) s = jumpWhen (fun a => !wordIsTrue a) m1 m2 s := rfl

/-- Settles O12: the three-parameter store with the checked sum. -/
theorem addWritesExactSum : Obligations.AddWritesExactSum := by
  unfold Obligations.AddWritesExactSum
  refine fun m1 m2 m3 => ⟨fun w => decode_ok_three rfl rfl, fun hm s => ?_⟩
  rw [exec_add]
  exact ⟨fun hp hw => storeBinary_stores hm hp (checkWord_ok hw),
    fun hp hw => storeBinary_raises hm hp (checkWord_error hw), fun _ hp => storeBinary_problem hm hp⟩

/-- Settles O13: the three-parameter store with the checked product. -/
theorem mulWritesExactProduct : Obligations.MulWritesExactProduct := by
  unfold Obligations.MulWritesExactProduct
  refine fun m1 m2 m3 => ⟨fun w => decode_ok_three rfl rfl, fun hm s => ?_⟩
  rw [exec_mul]
  exact ⟨fun hp hw => storeBinary_stores hm hp (checkWord_ok hw),
    fun hp hw => storeBinary_raises hm hp (checkWord_error hw), fun _ hp => storeBinary_problem hm hp⟩

theorem truthWord_decide (p : Prop) [Decidable p] : truthWord (decide p) = if p then 1 else 0 := by
  simp [truthWord]

/-- Settles O18: the three-parameter store with a comparison's word, which is never refused. -/
theorem lessThanWritesTruth : Obligations.LessThanWritesTruth := by
  unfold Obligations.LessThanWritesTruth
  refine fun m1 m2 m3 => ⟨fun w => decode_ok_three rfl rfl, fun hm s => ?_⟩
  rw [exec_lessThan]
  exact ⟨fun hp => storeBinary_stores hm hp (congrArg Except.ok (truthWord_decide _)),
    fun _ hp => storeBinary_problem hm hp⟩

/-- Settles O19: the three-parameter store with a comparison's word, which is never refused. -/
theorem equalsWritesTruth : Obligations.EqualsWritesTruth := by
  unfold Obligations.EqualsWritesTruth
  refine fun m1 m2 m3 => ⟨fun w => decode_ok_three rfl rfl, fun hm s => ?_⟩
  rw [exec_equals]
  exact ⟨fun hp => storeBinary_stores hm hp (congrArg Except.ok (truthWord_decide _)),
    fun _ hp => storeBinary_problem hm hp⟩

/-! ### input and output -/

theorem exec_input_blocks (hq : s.iq = []) : exec (.input m1) s = .next { s with status := .blocked } := by
  simp [exec, execInput, hq, takeBlock]

theorem exec_input_consumes {x : Word} {rest : List Word} (hm : m1 ≠ .immediate) (hq : s.iq = x :: rest)
    (hp : operandProblem 1 m1 s = none) :
    exec (.input m1) s = .next { s with
      mem := s.mem.write (targetAddress 1 m1 s) x, memLen := growTo s.memLen (touched1 m1 s), iq := rest,
      pc := s.pc + 2 } := by
  simp [exec, execInput_eq hm, hq, hp, commit, touched1]

theorem exec_input_problem {f : FaultRecord} (hm : m1 ≠ .immediate) (hq : s.iq ≠ [])
    (hp : operandProblem 1 m1 s = some f) :
    exec (.input m1) s = .next { s with fault := f, status := .faulted } := by
  obtain ⟨x, rest, hq⟩ := List.exists_cons_of_ne_nil hq
  simp [exec, execInput_eq hm, hq, hp, takeFault]

/-- Settles O14: the three cases of `exec` of an input. -/
theorem inputConsumesOneValueOrBlocks : Obligations.InputConsumesOneValueOrBlocks := by
  unfold Obligations.InputConsumesOneValueOrBlocks
  exact fun m1 => ⟨fun w => decode_input, fun hm s =>
    ⟨exec_input_blocks, fun _ _ => exec_input_consumes hm, fun _ => exec_input_problem hm⟩⟩

theorem exec_output_appends (hp : operandProblem 1 m1 s = none) (hq : s.config.oqCap ≠ some s.oq.length) :
    exec (.output m1) s = .next { s with
      oq := s.oq ++ [operandValue 1 m1 s], memLen := growTo s.memLen (touched1 m1 s), pc := s.pc + 2 } := by
  simp [exec, execOutput_eq, hp, queueFull_eq, hq, commit, touched1]

theorem exec_output_full (hp : operandProblem 1 m1 s = none) (hq : s.config.oqCap = some s.oq.length) :
    exec (.output m1) s = .next { s with fault := recordAt s .outputQueueFull 0 0, status := .faulted } := by
  simp [exec, execOutput_eq, hp, queueFull_eq, hq, takeFault]

theorem exec_output_problem {f : FaultRecord} (hp : operandProblem 1 m1 s = some f) :
    exec (.output m1) s = .next { s with fault := f, status := .faulted } := by
  simp [exec, execOutput_eq, hp, takeFault]

/-- Settles O15: the three cases of `exec` of an output. -/
theorem outputAppendsOperand : Obligations.OutputAppendsOperand := by
  unfold Obligations.OutputAppendsOperand
  exact fun m1 => ⟨fun w => decode_ok_one rfl rfl, fun s =>
    ⟨exec_output_appends, exec_output_full, fun _ => exec_output_problem⟩⟩

/-! ### The conditional jump -/

theorem jumpWhen_taken {taken : Word → Bool} (hp : problem2 m1 m2 s = none) (ha : taken (operandValue 1 m1 s) = true)
    (ht : 0 ≤ operandValue 2 m2 s) :
    jumpWhen taken m1 m2 s = .next { s with
      memLen := growTo s.memLen (touched2 m1 m2 s), pc := (operandValue 2 m2 s).toNat } := by
  simp [jumpWhen_eq, hp, ha, Int.not_lt.mpr ht, commit, touched2, touched1]

theorem jumpWhen_negative {taken : Word → Bool} (hp : problem2 m1 m2 s = none)
    (ha : taken (operandValue 1 m1 s) = true) (ht : operandValue 2 m2 s < 0) :
    jumpWhen taken m1 m2 s = .next { s with
      fault := recordAt s .negativeJumpTarget 2 (operandValue 2 m2 s), status := .faulted } := by
  simp [jumpWhen_eq, hp, ha, ht, takeFault, faultFetched_eq_recordAt]

theorem jumpWhen_falls {taken : Word → Bool} (hp : problem2 m1 m2 s = none)
    (ha : taken (operandValue 1 m1 s) = false) :
    jumpWhen taken m1 m2 s = .next { s with memLen := growTo s.memLen (touched2 m1 m2 s), pc := s.pc + 3 } := by
  simp [jumpWhen_eq, hp, ha, commit, touched2, touched1]

theorem jumpWhen_problem {taken : Word → Bool} {f : FaultRecord} (hp : problem2 m1 m2 s = some f) :
    jumpWhen taken m1 m2 s = .next { s with fault := f, status := .faulted } := by
  simp [jumpWhen_eq, hp, takeFault]

theorem wordIsTrue_of_ne_zero {v : Word} (h : v ≠ 0) : wordIsTrue v = true := decide_eq_true h

theorem wordIsTrue_of_eq_zero {v : Word} (h : v = 0) : wordIsTrue v = false := by simp [wordIsTrue, h]

/-- Settles O16: the conditional jump with the test `wordIsTrue`. -/
theorem jumpIfTrueTakesNonzero : Obligations.JumpIfTrueTakesNonzero := by
  unfold Obligations.JumpIfTrueTakesNonzero
  refine fun m1 m2 => ⟨fun w => decode_ok_two rfl rfl, fun s => ?_⟩
  rw [exec_jumpIfTrue]
  exact ⟨fun hp ha ht => jumpWhen_taken hp (wordIsTrue_of_ne_zero ha) ht,
    fun hp ha ht => jumpWhen_negative hp (wordIsTrue_of_ne_zero ha) ht,
    fun hp ha => jumpWhen_falls hp (wordIsTrue_of_eq_zero ha), fun _ hp => jumpWhen_problem hp⟩

/-- Settles O17: the conditional jump with the test negated. -/
theorem jumpIfFalseTakesZero : Obligations.JumpIfFalseTakesZero := by
  unfold Obligations.JumpIfFalseTakesZero
  refine fun m1 m2 => ⟨fun w => decode_ok_two rfl rfl, fun s => ?_⟩
  rw [exec_jumpIfFalse]
  exact ⟨fun hp ha ht => jumpWhen_taken hp (congrArg not (wordIsTrue_of_eq_zero ha)) ht,
    fun hp ha ht => jumpWhen_negative hp (congrArg not (wordIsTrue_of_eq_zero ha)) ht,
    fun hp ha => jumpWhen_falls hp (congrArg not (wordIsTrue_of_ne_zero ha)), fun _ hp => jumpWhen_problem hp⟩

/-! ### adjust-base and halt -/

/-- Settles O20: the operand meets a problem, or the new base is a word, or it is not. -/
theorem adjustBaseAddsToBase : Obligations.AdjustBaseAddsToBase := by
  unfold Obligations.AdjustBaseAddsToBase
  refine fun m1 => ⟨fun w => decode_ok_one rfl rfl, fun s => ⟨fun hp hw => ?_, fun hp hw => ?_, fun f hp => ?_⟩⟩
  · simp [exec, execAdjustBase_eq, hp, checkWord_ok hw, commit, touched1]
  · simp [exec, execAdjustBase_eq, hp, checkWord_error hw, takeFault]
  · simp [exec, execAdjustBase_eq, hp, takeFault]

/-- The step of a RUNNING core whose word decodes to `i`, by what `exec` answers. -/
theorem step_executes {s t : State} {i : Instr} (hx : executes s i) (h : exec i s = .next t) :
    step s = .next (returnFromRun t) := by
  obtain ⟨hr, hf, hd⟩ := hx
  rw [step_running hr, instructionStep_exec hf hd, h]
  rfl

/-- Settles O21: the code alone makes a halt, and `exec` of it is `takeHalt`. -/
theorem haltStopsTheRun : Obligations.HaltStopsTheRun := by
  unfold Obligations.HaltStopsTheRun
  refine ⟨fun w => decode_halt_iff, fun s => rfl, fun s hr hf hc => ?_⟩
  exact step_executes ⟨hr, hf, decode_halt_iff.mpr hc⟩ rfl

/-- Settles O5: `exec` always answers, and the step lets the run return from that answer. -/
theorem stepRunsDecodedInstruction : Obligations.StepRunsDecodedInstruction := by
  unfold Obligations.StepRunsDecodedInstruction
  intro s i hx
  obtain ⟨t, ht⟩ := exec_next i s
  exact ⟨t, ht, step_executes hx ht⟩

/-- Settles O37: a RUNNING core takes a fault or runs `exec`, which always answers; any other performs `hostStep`. -/
theorem everyStepContinues : Obligations.EveryStepContinues := by
  unfold Obligations.EveryStepContinues
  intro s
  by_cases hr : s.status = .running
  · rw [step_running hr]
    rcases instructionStep_cases s with ⟨-, h⟩ | ⟨-, -, h⟩ | ⟨-, e, -, h⟩ | ⟨-, i, -, h⟩
    · exact ⟨_, by rw [h]; rfl⟩
    · exact ⟨_, by rw [h]; rfl⟩
    · exact ⟨_, by rw [h]; rfl⟩
    · obtain ⟨t, ht⟩ := exec_next i s
      exact ⟨_, by rw [h, ht]; rfl⟩
  · exact ⟨_, step_host hr⟩

end Sys2Proof.Machine

/-! PROOFS. Faults: which record each one leaves, that nothing else changes, and what each cause says of the instruction
(60_exceptions.md R201 to R206). -/

namespace Sys2Proof

variable {w : Word} {k : Fin 4}

/-! ### What a decoder's error says of the word -/

theorem digit_le_nine (w : Word) (k : Nat) : digit w k ≤ 9 := by
  unfold digit
  have := Int.emod_lt_of_pos (w / 10 ^ k) (show (0 : Int) < 10 by decide)
  omega

theorem one_le_paramCount {c : Nat} (h : 1 ≤ paramCount c) : 1 ≤ c ∧ c ≤ 9 := by
  unfold paramCount at h
  split_ifs at h <;> omega

theorem one_le_writeParam {c : Nat} (h : 1 ≤ writeParam c) : c = 1 ∨ c = 2 ∨ c = 3 ∨ c = 7 ∨ c = 8 := by
  unfold writeParam at h
  split_ifs at h <;> omega

theorem decode_invalidMode {d : Nat} (h : decode w = .error (.invalidMode k d)) :
    1 ≤ k.val ∧ k.val ≤ paramCount (instrCode w) ∧ d = digit w (k.val + 1) ∧ 3 ≤ d := by
  rcases decode_eq_error_iff.mp h with ⟨-, he⟩ | ⟨-, j, h1, hn, -, ⟨hd, he⟩ | ⟨-, -, he⟩⟩
  · cases he
  · cases he
    exact ⟨h1, hn, rfl, hd⟩
  · cases he

theorem decode_immediateWrite (h : decode w = .error (.immediateWrite k)) :
    1 ≤ k.val ∧ k.val = writeParam (instrCode w) ∧ digit w (k.val + 1) = 1 := by
  rcases decode_eq_error_iff.mp h with ⟨-, he⟩ | ⟨-, j, h1, -, -, ⟨-, he⟩ | ⟨ht, hd, he⟩⟩
  · cases he
  · cases he
  · cases he
    exact ⟨h1, ht, hd⟩

end Sys2Proof

namespace Sys2Proof.Machine

variable {s t : State}

/-! ### The step that takes a fault -/

theorem step_takeFault {f : FaultRecord} (hr : s.status = .running)
    (h : instructionStep s = .next (takeFault f s)) :
    step s = .next { s with
      fault := f, status := .faulted,
      port := { s.port with replies := s.port.replies ++ [.stopped (.faulted f)] } } := by
  rw [step_running hr, h]
  rfl

theorem instructionStep_end (h : atEndOfProgram s = true) :
    instructionStep s = .next (takeFault (faultUnfetched s .endOfProgram 0) s) := by
  simp [instructionStep, fetch_end h]

theorem instructionStep_beyond (he : atEndOfProgram s = false) (hp : pcInMemory s = false) :
    instructionStep s = .next (takeFault (faultUnfetched s .memoryCapacity s.pc) s) := by
  simp [instructionStep, fetch_beyond he hp]

/-- At or beyond L memory reads 0 (10_state.md R22). -/
theorem Inv.read_beyond {a : Nat} (h : Inv s) (ha : s.memLen ≤ a) : s.mem.read a = 0 :=
  Memory.read_eq_zero fun c hc e => absurd (h.memBelowLen c hc) (by omega)

/-- Settles O6: the two faults of the fetch, and the word 0 that the invariant says stands beyond L. -/
theorem fetchStopsAtEndOrCapacity : Obligations.FetchStopsAtEndOrCapacity := by
  unfold Obligations.FetchStopsAtEndOrCapacity
  refine fun s hr => ⟨fun he => ⟨_, rfl, step_takeFault hr (instructionStep_end he)⟩,
    fun he hp => ⟨_, rfl, step_takeFault hr (instructionStep_beyond he hp)⟩, fun hinv hf hl => ⟨_, rfl, ?_⟩⟩
  have zero : s.mem.read s.pc = 0 := hinv.read_beyond hl
  have rejected := instructionStep_rejected (e := .invalidOpcode) hf (by rw [zero]; decide)
  rw [decodeFault, faultFetched, currentWord, zero] at rejected
  exact step_takeFault hr rejected

/-- Settles O7: the record is `decodeFault`, which is the statement's for each error. -/
theorem decodeFaultIsRecorded : Obligations.DecodeFaultIsRecorded := by
  unfold Obligations.DecodeFaultIsRecorded
  refine fun s e hr hf hd => ⟨decodeFault s e, ?_, ?_, ?_, step_takeFault hr (instructionStep_rejected hf hd)⟩
  · rintro rfl; rfl
  · rintro k d rfl; rfl
  · rintro k rfl; rfl

/-- Settles O8: the decoder's InvalidOpcode, taken as a fault by the step. -/
theorem illegalCodesFault : Obligations.IllegalCodesFault := by
  unfold Obligations.IllegalCodesFault
  refine ⟨fun w => decode_invalidOpcode_iff, fun s hr hf hc => ⟨_, rfl, ?_⟩, by decide, by decide, by decide, by decide,
    by decide⟩
  exact step_takeFault hr (instructionStep_rejected hf (decode_invalidOpcode_iff.mpr hc))

/-! ### Every fault of a step -/

/-- Where the fault record `f` of a step from `s` comes from: the fetch, at the end of the program or beyond the memory; the
decoder; or the instruction executed. -/
inductive FaultOrigin (s : State) (f : FaultRecord) : Prop where
  | endOfProgram (he : atEndOfProgram s = true) (hf : f = faultUnfetched s .endOfProgram 0)
  | beyondMemory (he : atEndOfProgram s = false) (hp : pcInMemory s = false)
      (hf : f = faultUnfetched s .memoryCapacity s.pc)
  | rejected (e : DecodeError) (hfetch : fetchable s = true) (hd : decode (s.mem.read s.pc) = .error e)
      (hf : f = decodeFault s e)
  | raised (i : Instr) (hx : executes s i) (hf : Raised i s f)

/-- A step of a RUNNING core that ends FAULTED has taken a fault of one of these origins. -/
theorem step_faulted_cases (hr : s.status = .running) (h : step s = .next t) (ht : t.status = .faulted) :
    ∃ f, t = returnFromRun (takeFault f s) ∧ FaultOrigin s f := by
  rcases step_running_cases hr h with ⟨f, rfl, hf⟩ | ⟨rfl, -⟩ | ⟨rfl, -⟩ | ⟨i, e, -, rfl, -⟩
  · refine ⟨f, rfl, ?_⟩
    rcases hf with ⟨he, hf⟩ | ⟨he, hp, hf⟩ | ⟨hfetch, e, hd, hf⟩ | ⟨i, hx, hf⟩
    · exact .endOfProgram he hf
    · exact .beyondMemory he hp hf
    · exact .rejected e hfetch hd hf
    · exact .raised i hx hf
  · simp at ht
  · simp at ht
  · simp [hr] at ht

/-- Every record names a cause, and is that of the instruction at PC, its word fetched or not. -/
theorem FaultOrigin.record {f : FaultRecord} (h : FaultOrigin s f) :
    ∃ c, c ≠ .noFault ∧ ((∃ v, f = faultUnfetched s c v) ∨ ∃ k v, f = faultFetched s c k v) := by
  cases h with
  | endOfProgram _ hf => exact ⟨_, by decide, .inl ⟨_, hf⟩⟩
  | beyondMemory _ _ hf => exact ⟨_, by decide, .inl ⟨_, hf⟩⟩
  | rejected e _ _ hf => subst hf; cases e <;> exact ⟨_, by decide, .inr ⟨_, _, rfl⟩⟩
  | raised i _ hf =>
    obtain ⟨c, k, v, hf, hc, -⟩ := hf.ofInstruction
    exact ⟨c, hc, .inr ⟨k, v, hf⟩⟩

/-- Settles O9: whatever its origin, the fault is taken by `takeFault` and its record is that of PC. -/
theorem faultEntryKeepsEverythingElse : Obligations.FaultEntryKeepsEverythingElse := by
  unfold Obligations.FaultEntryKeepsEverythingElse
  intro s t hr h ht
  obtain ⟨f, rfl, hf⟩ := step_faulted_cases hr h ht
  refine ⟨rfl, ?_⟩
  obtain ⟨c, hc, ⟨v, rfl⟩ | ⟨k, v, rfl⟩⟩ := hf.record
  · exact ⟨hc, rfl, nofun, fun _ => rfl⟩
  · exact ⟨hc, rfl, fun _ => rfl, nofun⟩

/-! ### The causes, one by one (60_exceptions.md R201) -/

theorem atEndOfProgram_of_fetchable (h : fetchable s = true) : atEndOfProgram s = false := by
  simp only [fetchable, Bool.and_eq_true, Bool.not_eq_true'] at h
  exact h.1

theorem memCap_of_not_pcInMemory (h : pcInMemory s = false) : ∃ cap, s.config.memCap = some cap ∧ (cap : Int) ≤ s.pc := by
  rw [← beyondCap_eq_true_iff, beyondCap_pc, h]
  rfl

variable {f : FaultRecord}

theorem Raised.wordValid {i : Instr} (h : Raised i s f) : f.wordValid = true := by
  obtain ⟨c, k, v, rfl, -⟩ := h.ofInstruction
  rfl

/-- The decoder's three causes are raised by the decoder alone: an instruction that runs is well formed. -/
theorem FaultOrigin.rejected_of (h : FaultOrigin s f)
    (hc : f.cause = .invalidOpcode ∨ f.cause = .invalidMode ∨ f.cause = .immediateWrite) :
    ∃ e, decode (s.mem.read s.pc) = .error e ∧ f = decodeFault s e := by
  cases h with
  | endOfProgram _ hf => simp [hf, faultUnfetched] at hc
  | beyondMemory _ _ hf => simp [hf, faultUnfetched] at hc
  | rejected e _ hd hf => exact ⟨e, hd, hf⟩
  | raised i hx hf =>
    obtain ⟨c, k, v, rfl, -, -, hopcode, hmode⟩ := hf.ofInstruction
    rcases hc with hc | hc | hc
    · exact absurd hc hopcode
    · exact absurd hc hmode
    · have wellFormed := (decode_ok_code hx.2.2).2
      simp [hf.immediateWrite hc] at wellFormed

/-- A cause that is neither the fetch's nor the decoder's is raised by the instruction executed. -/
theorem FaultOrigin.raised_of (h : FaultOrigin s f)
    (hc : f.cause = .negativeAddress ∨ f.cause = .negativeJumpTarget ∨ f.cause = .wordOverflow ∨
      f.cause = .outputQueueFull) : ∃ i, executes s i ∧ Raised i s f := by
  cases h with
  | endOfProgram _ hf => simp [hf, faultUnfetched] at hc
  | beyondMemory _ _ hf => simp [hf, faultUnfetched] at hc
  | rejected e _ _ hf => cases e <;> simp [hf, decodeFault, faultFetched] at hc
  | raised i hx hf => exact ⟨i, hx, hf⟩

theorem FaultOrigin.endOfProgram_iff (h : FaultOrigin s f) : f.cause = .endOfProgram ↔ atEndOfProgram s = true := by
  cases h with
  | endOfProgram he hf => simp [he, hf, faultUnfetched]
  | beyondMemory he _ hf => simp [he, hf, faultUnfetched]
  | rejected e hfetch _ hf =>
    cases e <;> simp [atEndOfProgram_of_fetchable hfetch, hf, decodeFault, faultFetched]
  | raised i hx hf =>
    obtain ⟨c, k, v, rfl, -, hend, -⟩ := hf.ofInstruction
    simp [atEndOfProgram_of_fetchable hx.2.1, recordAt, hend]

theorem FaultOrigin.of_endOfProgram (h : FaultOrigin s f) (hc : f.cause = .endOfProgram) :
    f.wordValid = false ∧ f.param = 0 ∧ f.value = 0 := by
  cases h with
  | endOfProgram _ hf => simp [hf, faultUnfetched]
  | beyondMemory _ _ hf => simp [hf, faultUnfetched] at hc
  | rejected e _ _ hf => cases e <;> simp [hf, decodeFault, faultFetched] at hc
  | raised i _ hf =>
    obtain ⟨c, k, v, rfl, -, hend, -⟩ := hf.ofInstruction
    exact absurd hc hend

theorem FaultOrigin.of_invalidOpcode (h : FaultOrigin s f) (hc : f.cause = .invalidOpcode) :
    codeDefined (instrCode (s.mem.read s.pc)) = false ∧ f.wordValid = true ∧ f.param = 0 ∧ f.value = 0 := by
  obtain ⟨e, hd, rfl⟩ := h.rejected_of (.inl hc)
  cases e with
  | invalidOpcode =>
    exact ⟨(codeDefined_eq_false_iff (instrCode_lt _)).mpr (decode_invalidOpcode_iff.mp hd), rfl, rfl, rfl⟩
  | invalidMode k d => cases hc
  | immediateWrite k => cases hc

theorem FaultOrigin.of_invalidMode {w : Word} (h : FaultOrigin s f) (hw : w = s.mem.read s.pc)
    (hc : f.cause = .invalidMode) :
    f.wordValid = true ∧ 1 ≤ instrCode w ∧ instrCode w ≤ 9 ∧ 1 ≤ f.param.val ∧
      f.param.val ≤ paramCount (instrCode w) ∧ f.value = digit w (f.param.val + 1) ∧ 3 ≤ f.value ∧ f.value ≤ 9 := by
  obtain ⟨e, hd, rfl⟩ := h.rejected_of (.inr (.inl hc))
  subst hw
  cases e with
  | invalidOpcode => cases hc
  | invalidMode k d =>
    obtain ⟨h1, hn, rfl, h3⟩ := decode_invalidMode hd
    obtain ⟨hlow, hhigh⟩ := one_le_paramCount (h1.trans hn)
    exact ⟨rfl, hlow, hhigh, h1, hn, rfl, Int.ofNat_le.mpr h3, Int.ofNat_le.mpr (digit_le_nine _ _)⟩
  | immediateWrite k => cases hc

theorem FaultOrigin.of_immediateWrite {w : Word} (h : FaultOrigin s f) (hw : w = s.mem.read s.pc)
    (hc : f.cause = .immediateWrite) :
    f.wordValid = true ∧
      (instrCode w = 1 ∨ instrCode w = 2 ∨ instrCode w = 3 ∨ instrCode w = 7 ∨ instrCode w = 8) ∧
      f.param.val = writeParam (instrCode w) ∧ digit w (f.param.val + 1) = 1 ∧ f.value = 0 := by
  obtain ⟨e, hd, rfl⟩ := h.rejected_of (.inr (.inr hc))
  subst hw
  cases e with
  | invalidOpcode => cases hc
  | invalidMode k d => cases hc
  | immediateWrite k =>
    obtain ⟨h1, ht, hdigit⟩ := decode_immediateWrite hd
    exact ⟨rfl, one_le_writeParam (ht ▸ h1), ht, hdigit, rfl⟩

theorem FaultOrigin.of_memoryCapacity (h : FaultOrigin s f) (hc : f.cause = .memoryCapacity) :
    (∃ cap, s.config.memCap = some cap ∧ (cap : Int) ≤ f.value) ∧
      ((f.wordValid = false ∧ f.param = 0 ∧ f.value = s.pc) ∨
        (f.wordValid = true ∧ ∃ i m, executes s i ∧ paramMode i f.param = some m ∧
          (f.value = (s.pc + f.param.val : Nat) ∨ operandAddress f.param m s = some f.value))) := by
  cases h with
  | endOfProgram _ hf => simp [hf, faultUnfetched] at hc
  | beyondMemory _ hp hf =>
    subst hf
    exact ⟨memCap_of_not_pcInMemory hp, .inl ⟨rfl, rfl, rfl⟩⟩
  | rejected e _ _ hf => cases e <;> simp [hf, decodeFault, faultFetched] at hc
  | raised i hx hf =>
    obtain ⟨hcap, m, hm, haddress⟩ := hf.memoryCapacity hc
    exact ⟨hcap, .inr ⟨hf.wordValid, i, m, hx, hm, haddress⟩⟩

/-- Settles O10: one lemma for each cause, by the origins that can raise it. -/
theorem faultCauseNamesItsInstruction : Obligations.FaultCauseNamesItsInstruction := by
  unfold Obligations.FaultCauseNamesItsInstruction
  intro s t w f hr h ht hw hf
  obtain ⟨p, rfl, ho⟩ := step_faulted_cases hr h ht
  obtain rfl : f = p := hf
  refine ⟨ho.endOfProgram_iff, ho.of_endOfProgram, fun hc => by rw [hw]; exact ho.of_invalidOpcode hc,
    ho.of_invalidMode hw, ho.of_immediateWrite hw, fun hc => ?_, ho.of_memoryCapacity, fun hc => ?_, fun hc => ?_,
    fun hc => ?_⟩
  · obtain ⟨i, hx, hraised⟩ := ho.raised_of (.inl hc)
    obtain ⟨hneg, m, hm, haddress⟩ := hraised.negativeAddress hc
    exact ⟨hraised.wordValid, hneg, i, m, hx, hm, haddress⟩
  · obtain ⟨i, hx, hraised⟩ := ho.raised_of (.inr (.inl hc))
    obtain ⟨hneg, hparam, m1, m2, hv, hjump⟩ := hraised.negativeJumpTarget hc
    refine ⟨hraised.wordValid, hparam, hneg, m1, m2, hv, ?_⟩
    rcases hjump with ⟨rfl, ha⟩ | ⟨rfl, ha⟩
    · exact .inl ⟨hx, ha⟩
    · exact .inr ⟨hx, ha⟩
  · obtain ⟨i, hx, hraised⟩ := ho.raised_of (.inr (.inr (.inl hc)))
    obtain ⟨hparam, hword, hresult⟩ := hraised.wordOverflow hc
    exact ⟨hraised.wordValid, hparam, hword, i, hx, hresult⟩
  · obtain ⟨i, hx, hraised⟩ := ho.raised_of (.inr (.inr (.inr hc)))
    obtain ⟨hparam, hv, hcap, m1, rfl⟩ := hraised.outputQueueFull hc
    exact ⟨hraised.wordValid, hparam, hv, hcap, m1, hx⟩

/-! ### The order of an input instruction's stops (60_exceptions.md R203) -/

theorem decode_input_immediate {w : Word} (hc : instrCode w = 3) (hd : digit w 2 = 1) :
    decode w = .error (.immediateWrite 1) := by
  have hdef : codeDefined (instrCode w) = true := by simp [codeDefined, hc]
  rw [decode_defined_error_iff hdef, hc]
  exact firstDefect_one.mpr (.inr ⟨rfl, hd, rfl⟩)

theorem addressProblem_param (h : pcInMemory { s with pc := s.pc + 1 } = true) (k : Fin 4) :
    addressProblem k ((s.pc + 1 : Nat) : Int) s = none := by
  have hneg : ¬((s.pc + 1 : Nat) : Int) < 0 := by omega
  unfold pcInMemory at h
  unfold addressProblem
  cases hc : s.config.memCap with
  | none => simp only [hneg, if_false]
  | some cap =>
    simp only [hc, decide_eq_true_eq] at h
    simp only [hneg, if_false, ite_eq_right_iff]
    omega

theorem operandProblem_negative (hpc : pcInMemory { s with pc := s.pc + 1 } = true)
    (hn : s.mem.read (s.pc + 1) < 0) :
    operandProblem 1 .position s = some (recordAt s .negativeAddress 1 (s.mem.read (s.pc + 1))) := by
  have word : addressProblem 1 ((s.pc + (1 : Fin 4) : Nat) : Int) s = none := addressProblem_param hpc 1
  rw [operandProblem, word]
  simp [operandAddress, addressProblem, hn]

/-- Settles O11: the decoder comes before the empty test, and the empty test before the address check. -/
theorem inputFaultsAndBlocksInOrder : Obligations.InputFaultsAndBlocksInOrder := by
  unfold Obligations.InputFaultsAndBlocksInOrder
  intro s hr hf hc
  have executesInput : digit (s.mem.read s.pc) 2 = 0 → executes s (.input .position) := fun hd =>
    ⟨hr, hf, decode_input.mpr ⟨hc, hd, by decide⟩⟩
  refine ⟨fun hd => ?_, fun hd hq => ?_, fun hd hq hpc hn => ?_⟩
  · exact ⟨_, step_takeFault hr (instructionStep_rejected hf (decode_input_immediate hc hd)), rfl, rfl⟩
  · exact ⟨_, step_executes (executesInput hd) (exec_input_blocks hq), rfl⟩
  · exact ⟨_, step_executes (executesInput hd) (exec_input_problem (by decide) hq (operandProblem_negative hpc hn)),
      rfl, rfl⟩

end Sys2Proof.Machine

/-! PROOFS. Frames, and what a store leaves readable: each instruction's answer is a fault taken, a block, a halt, or a commit
whose staged effects name all that changes. -/

namespace Sys2Proof.Machine

variable {s t : State} {m1 m2 m3 : Mode}

/-! ### What the storing instructions answer, by their write target -/

theorem orFault_next {α : Type} {r : Except FaultRecord α} {k : α → Host.Outcome State Fault Refusal}
    (h : orFault r s k = .next t) : (∃ p, t = takeFault p s) ∨ ∃ a, r = .ok a ∧ k a = .next t := by
  cases r with
  | error p => cases h; exact .inl ⟨p, rfl⟩
  | ok a => exact .inr ⟨a, rfl, h⟩

/-- A three-parameter store takes a fault, or commits one write at the address its target resolves to. -/
theorem storeBinary_next {f : Word → Word → Except FaultRecord Word} (h : storeBinary f m1 m2 m3 s = .next t) :
    (∃ p, t = takeFault p s) ∨
      ∃ touched d r, writeTarget 3 m3 s = .ok d ∧
        t = commit { advance 3 touched s with write := some (d.addr, r) } s := by
  obtain hf | ⟨a, -, h⟩ := orFault_next h
  · exact .inl hf
  obtain hf | ⟨b, -, h⟩ := orFault_next h
  · exact .inl hf
  obtain hf | ⟨d, hd, h⟩ := orFault_next h
  · exact .inl hf
  obtain hf | ⟨r, -, h⟩ := orFault_next h
  · exact .inl hf
  cases h
  exact .inr ⟨_, d, r, hd, rfl⟩

/-- input blocks on an empty IQ, takes a fault, or commits the front of IQ at the address its target resolves to. -/
theorem exec_input_next (h : exec (.input m1) s = .next t) :
    t = takeBlock s ∨ (∃ p, t = takeFault p s) ∨
      ∃ d x rest, s.iq = x :: rest ∧ writeTarget 1 m1 s = .ok d ∧
        t = commit { advance 1 d.touched s with write := some (d.addr, x), dequeue := true } s := by
  simp only [exec, execInput] at h
  cases hq : s.iq with
  | nil => rw [hq] at h; cases h; exact .inl rfl
  | cons x rest =>
    rw [hq] at h
    obtain hf | ⟨d, hd, h⟩ := orFault_next h
    · exact .inr (.inl hf)
    cases h
    exact .inr (.inr ⟨d, x, rest, rfl, hd, rfl⟩)

/-- A write at the address a target resolves to leaves every other cell alone; where it resolves to none there is no write. -/
theorem read_write_target {r : Except FaultRecord Target} {d : Target} {v : Word} (hr : r = .ok d) :
    (∀ d', r = .ok d' → ∀ a, a ≠ d'.addr → (s.mem.write d.addr v).read a = s.mem.read a) ∧
    (∀ f, r = .error f → ∀ a, (s.mem.write d.addr v).read a = s.mem.read a) := by
  subst hr
  refine ⟨?_, nofun⟩
  rintro d' ⟨⟩ a ha
  exact Memory.read_write_other s.mem v ha

/-- Settles O23: the four instructions are one shape, which takes a fault or commits one write. -/
theorem binaryStoreFrame : Obligations.BinaryStoreFrame := by
  unfold Obligations.BinaryStoreFrame
  intro s t m1 m2 m3 i hi h
  have shape : ∃ f, storeBinary f m1 m2 m3 s = .next t := by
    rcases hi with rfl | rfl | rfl | rfl
    · exact ⟨_, exec_add m1 m2 m3 s ▸ h⟩
    · exact ⟨_, exec_mul m1 m2 m3 s ▸ h⟩
    · exact ⟨_, exec_lessThan m1 m2 m3 s ▸ h⟩
    · exact ⟨_, exec_equals m1 m2 m3 s ▸ h⟩
  obtain ⟨f, h⟩ := shape
  rcases storeBinary_next h with ⟨p, rfl⟩ | ⟨touched, d, r, hd, rfl⟩
  · exact ⟨rfl, rfl, rfl, rfl, rfl, rfl, .inr ⟨rfl, rfl, rfl, rfl⟩, fun _ _ _ _ => rfl, fun _ _ _ => rfl⟩
  · exact ⟨rfl, rfl, rfl, rfl, rfl, rfl, .inl ⟨rfl, rfl⟩, read_write_target hd⟩

/-- Settles O24: input blocks, takes a fault, or commits one write and the removal of the front of IQ. -/
theorem inputFrame : Obligations.InputFrame := by
  unfold Obligations.InputFrame
  intro s t m1 h
  rcases exec_input_next h with rfl | ⟨p, rfl⟩ | ⟨d, x, rest, hq, hd, rfl⟩
  · exact ⟨rfl, rfl, rfl, rfl, rfl, .inr ⟨.inr ⟨rfl, rfl⟩, rfl, rfl, rfl, rfl⟩, fun _ _ _ _ => rfl, fun _ _ _ => rfl⟩
  · exact ⟨rfl, rfl, rfl, rfl, rfl, .inr ⟨.inl rfl, rfl, rfl, rfl, rfl⟩, fun _ _ _ _ => rfl, fun _ _ _ => rfl⟩
  · exact ⟨rfl, rfl, rfl, rfl, rfl, .inl ⟨rfl, rfl, x, by simp [hq]⟩, read_write_target hd⟩

/-! ### The instructions that store nothing -/

theorem Staged.write_eq_none {i : Instr} {e : Effects} (he : Staged i s e) (hi : stores i = false) : e.write = none := by
  cases hw : e.write with
  | none => rfl
  | some w =>
    obtain ⟨hs, -⟩ := he.writes w.1 w.2 hw
    simp [hi] at hs

theorem Staged.dequeue_eq_false {i : Instr} {e : Effects} (he : Staged i s e) (hi : ∀ m, i ≠ .input m) :
    e.dequeue = false := by
  rcases he.dequeues with ⟨-, ⟨m1, rfl⟩, -⟩ | ⟨hd, -⟩
  · exact absurd rfl (hi m1)
  · exact hd

/-- Settles O25: an instruction that stores nothing stages no write and no removal from IQ. -/
theorem nonStoringFrame : Obligations.NonStoringFrame := by
  unfold Obligations.NonStoringFrame
  intro s t i hi h
  have notInput : ∀ m, i ≠ .input m := by rintro m rfl; cases hi
  rcases exec_cases h with ⟨p, rfl, -⟩ | ⟨rfl, -, m, rfl⟩ | ⟨rfl, rfl⟩ | ⟨e, rfl, he⟩
  · exact ⟨rfl, rfl, rfl, fun _ => rfl, .inl rfl, .inl rfl, .inr (.inr ⟨rfl, rfl, rfl, rfl, rfl, rfl⟩)⟩
  · exact absurd rfl (notInput m)
  · exact ⟨rfl, rfl, rfl, fun _ => rfl, .inl rfl, .inl rfl, .inr (.inl ⟨rfl, rfl, rfl, rfl, rfl, rfl⟩)⟩
  · refine ⟨rfl, by simp [he.dequeue_eq_false notInput], rfl, fun _ => by simp [he.write_eq_none hi], ?_, ?_,
      .inl ⟨rfl, rfl, rfl⟩⟩
    · exact he.movesBase.imp id fun ⟨hadjust, _⟩ => hadjust
    · exact he.commit_oq.imp id fun ⟨m1, hout, _, hq⟩ => ⟨m1, _, hout, hq⟩

/-! ### What is stored is read back -/

/-- The word that one of the four three-parameter instructions stores is the result its shape computes. -/
theorem exec_storeBinary {i : Instr} {r : Word}
    (h : (i = .add m1 m2 m3 ∧ r = operandValue 1 m1 s + operandValue 2 m2 s ∧ inWord s.config r = true) ∨
      (i = .mul m1 m2 m3 ∧ r = operandValue 1 m1 s * operandValue 2 m2 s ∧ inWord s.config r = true) ∨
      (i = .lessThan m1 m2 m3 ∧ r = if operandValue 1 m1 s < operandValue 2 m2 s then 1 else 0) ∨
      (i = .equals m1 m2 m3 ∧ r = if operandValue 1 m1 s = operandValue 2 m2 s then 1 else 0)) :
    ∃ f, exec i s = storeBinary f m1 m2 m3 s ∧ f (operandValue 1 m1 s) (operandValue 2 m2 s) = .ok r := by
  rcases h with ⟨rfl, rfl, hw⟩ | ⟨rfl, rfl, hw⟩ | ⟨rfl, rfl⟩ | ⟨rfl, rfl⟩
  · exact ⟨_, exec_add m1 m2 m3 s, checkWord_ok hw⟩
  · exact ⟨_, exec_mul m1 m2 m3 s, checkWord_ok hw⟩
  · exact ⟨_, exec_lessThan m1 m2 m3 s, congrArg Except.ok (truthWord_decide _)⟩
  · exact ⟨_, exec_equals m1 m2 m3 s, congrArg Except.ok (truthWord_decide _)⟩

theorem storeBinary_read_back {i : Instr} {f : Word → Word → Except FaultRecord Word} {r : Word} (wf : s.mem.wf)
    (hm : m3 ≠ .immediate) (hp : problem3 m1 m2 m3 s = none) (hi : exec i s = storeBinary f m1 m2 m3 s)
    (hf : f (operandValue 1 m1 s) (operandValue 2 m2 s) = .ok r) :
    ∃ t, exec i s = .next t ∧ t.mem.read (targetAddress 3 m3 s) = r :=
  ⟨_, hi.trans (storeBinary_stores hm hp hf), Memory.read_write_same wf _ r⟩

theorem operandProblem_of_problem3 (h : problem3 m1 m2 m3 s = none) :
    operandProblem 1 m1 s = none ∧ operandProblem 2 m2 s = none ∧ operandProblem 3 m3 s = none := by
  simpa [problem3, problem2, and_assoc] using h

/-- Settles O26: each store commits its result at dst, and canonical memory reads back what is written. -/
theorem storedResultIsReadBack : Obligations.StoredResultIsReadBack := by
  unfold Obligations.StoredResultIsReadBack
  intro s m1 m2 m3 wf hm hp
  refine ⟨fun hw => ?_, fun hw => ?_, ?_, ?_, fun hm1 x rest hq => ?_⟩
  · exact storeBinary_read_back wf hm hp (exec_add m1 m2 m3 s) (checkWord_ok hw)
  · exact storeBinary_read_back wf hm hp (exec_mul m1 m2 m3 s) (checkWord_ok hw)
  · exact storeBinary_read_back wf hm hp (exec_lessThan m1 m2 m3 s) (congrArg Except.ok (truthWord_decide _))
  · exact storeBinary_read_back wf hm hp (exec_equals m1 m2 m3 s) (congrArg Except.ok (truthWord_decide _))
  · exact ⟨_, exec_input_consumes hm1 hq (operandProblem_of_problem3 hp).1, Memory.read_write_same wf _ x⟩

/-! ### The next fetch -/

/-- Below L and inside the memory the fetch gives the word at PC. -/
theorem fetch_below {v : Word} (hl : t.pc < t.memLen) (hb : beyondCap t.config t.pc = false)
    (hv : t.mem.read t.pc = v) : fetch t = .ok v := by
  have inMemory : pcInMemory t = true := by simpa [beyondCap_pc] using hb
  rw [← hv]
  exact fetch_ok (by simp [fetchable, atEndOfProgram, inMemory, hl.ne])

/-- A target that meets no problem lies inside the memory. -/
theorem targetAddress_fits {k : Fin 4} {m : Mode} (hm : m ≠ .immediate) (h : operandProblem k m s = none) :
    beyondCap s.config (targetAddress k m s) = false :=
  operandTouched_fits h _ (targetAddress_touched hm s)

/-- Settles O27: the address stored to is among those touched, so L covers it, and the memory holds the word there. -/
theorem writeIsSeenByNextFetch : Obligations.WriteIsSeenByNextFetch := by
  unfold Obligations.WriteIsSeenByNextFetch
  refine ⟨fun s m1 m2 m3 i r wf hm hp ha hi => ?_, fun s m1 x rest wf hm hp ha hq => ?_, fun s t i v wf h hi => ?_⟩
  · obtain ⟨f, hx, hf⟩ := exec_storeBinary hi
    refine ⟨_, hx.trans (storeBinary_stores hm hp hf), rfl, ?_⟩
    have touched : s.pc + 4 ∈ touched3 m1 m2 m3 s := ha ▸ List.mem_append_right _ (targetAddress_touched hm s)
    have fits := targetAddress_fits hm (operandProblem_of_problem3 hp).2.2
    rw [ha] at fits ⊢
    exact fetch_below (lt_growTo touched) fits (Memory.read_write_same wf _ _)
  · refine ⟨_, exec_input_consumes hm hq hp, rfl, ?_⟩
    have touched : s.pc + 2 ∈ touched1 m1 s := ha ▸ List.mem_cons_of_mem _ (targetAddress_touched hm s)
    have fits := targetAddress_fits hm hp
    rw [ha] at fits ⊢
    exact fetch_below (lt_growTo touched) fits (Memory.read_write_same wf _ _)
  · subst hi
    unfold writeMemory at h
    split_ifs at h with hok
    rw [Bool.and_eq_true, hostIndexOk_eq_true_iff] at hok
    cases h
    rw [Int.toNat_natCast]
    exact fetch_below (lt_max_of_lt_right (Nat.lt_succ_self _)) hok.1.2 (Memory.read_write_same wf _ v)

end Sys2Proof.Machine

/-! PROOFS. Whole-machine rules: which event can change RB, `halted`, PC, the queues, `status` and the port. Each is read off
what a step of a RUNNING core can do and what a host command can do. -/

namespace Sys2Proof.Machine

variable {s t : State}

/-! ### RB, `halted`, the configuration and PC -/

/-- Settles O28: only a commit of adjust-base and an accepted construct set RB. -/
theorem relativeBaseHasOneWriter : Obligations.RelativeBaseHasOneWriter := by
  unfold Obligations.RelativeBaseHasOneWriter
  intro s t h hne
  by_cases hr : s.status = .running
  · rcases step_running_cases hr h with ⟨f, rfl, -⟩ | ⟨rfl, -⟩ | ⟨rfl, -⟩ | ⟨i, e, hx, rfl, he⟩
    · exact absurd rfl hne
    · exact absurd rfl hne
    · exact absurd rfl hne
    · rcases he.movesBase with hb | ⟨⟨m1, rfl⟩, -⟩
      · exact absurd hb hne
      · exact .inl ⟨m1, hx⟩
  · obtain ⟨-, rfl⟩ | ⟨c, u, p, hc, he, rfl⟩ := step_host_cases hr h
    · exact absurd rfl hne
    · cases he with
      | constructed program => exact .inr ⟨program, hc⟩
      | _ => exact absurd rfl hne

/-- Settles O32: only `takeHalt`, `hostReset` and an accepted construct set `halted`. -/
theorem haltedHasOneSetter : Obligations.HaltedHasOneSetter := by
  unfold Obligations.HaltedHasOneSetter
  intro s t h hne
  by_cases hr : s.status = .running
  · rcases step_running_cases hr h with ⟨f, rfl, -⟩ | ⟨rfl, -⟩ | ⟨rfl, hx⟩ | ⟨i, e, -, rfl, -⟩
    · exact absurd rfl hne
    · exact absurd rfl hne
    · exact .inl ⟨hx, rfl⟩
    · exact absurd rfl hne
  · obtain ⟨-, rfl⟩ | ⟨c, u, p, hc, he, rfl⟩ := step_host_cases hr h
    · exact absurd rfl hne
    · cases he with
      | constructed program => exact .inr ⟨.inr ⟨program, hc⟩, rfl⟩
      | wasReset => exact .inr ⟨.inl hc, rfl⟩
      | _ => exact absurd rfl hne

/-- Settles O35: every answer of a step keeps the configuration, construct included. -/
theorem configurationNeverChanges : Obligations.ConfigurationNeverChanges := by
  unfold Obligations.ConfigurationNeverChanges
  intro s t h
  by_cases hr : s.status = .running
  · rcases step_running_cases hr h with ⟨f, rfl, -⟩ | ⟨rfl, -⟩ | ⟨rfl, -⟩ | ⟨i, e, -, rfl, -⟩ <;> rfl
  · obtain ⟨-, rfl⟩ | ⟨c, u, p, -, he, rfl⟩ := step_host_cases hr h
    · rfl
    · cases he <;> rfl

/-- Settles O33: only a commit moves PC, and `Staged` says where to. -/
theorem onlyJumpsSetComputedPc : Obligations.OnlyJumpsSetComputedPc := by
  unfold Obligations.OnlyJumpsSetComputedPc
  intro s t i h
  rcases exec_cases h with ⟨p, rfl, -⟩ | ⟨rfl, -⟩ | ⟨rfl, -⟩ | ⟨e, rfl, he⟩
  · exact .inl rfl
  · exact .inl rfl
  · exact .inl rfl
  · exact .inr he.movesPc

/-! ### `status` (60_exceptions.md R217) -/

/-- How a step of a RUNNING core can leave its status, and by which event. -/
theorem step_running_status (hr : s.status = .running) (h : step s = .next t) :
    t.status = .faulted ∨ (t.status = .blocked ∧ s.iq = [] ∧ ∃ m1, executes s (.input m1)) ∨
      (t.status = .halted ∧ executes s .halt) ∨ t.status = .running := by
  rcases step_running_cases hr h with ⟨f, rfl, -⟩ | ⟨rfl, hq, hx⟩ | ⟨rfl, hx⟩ | ⟨i, e, -, rfl, -⟩
  · exact .inl rfl
  · exact .inr (.inl ⟨rfl, hq, hx⟩)
  · exact .inr (.inr (.inl ⟨rfl, hx⟩))
  · exact .inr (.inr (.inr hr))

theorem HostEffect.status {c : Command} (h : HostEffect s c t) (hrun : c ≠ .run) (hreset : c ≠ .reset)
    (hconstruct : ∀ program, c ≠ .construct program) : t.status = s.status := by
  cases h with
  | constructed program => exact absurd rfl (hconstruct program)
  | runEntered => exact absurd rfl hrun
  | wasReset => exact absurd rfl hreset
  | _ => rfl

theorem HostEffect.construct_status {program : List Word} (h : HostEffect s (.construct program) t) :
    t.status = .ready ∨ t.status = s.status := by
  cases h with
  | kept => exact .inr rfl
  | constructed => exact .inl rfl

/-- Settles O36: a RUNNING core by `step_running_status`, any other by the command it performs. -/
theorem statusFollowsStateMachine : Obligations.StatusFollowsStateMachine := by
  unfold Obligations.StatusFollowsStateMachine
  intro s t h
  refine ⟨fun hr => ?_, fun hr hh => ?_, fun hr hb => ?_, fun hc hs => ?_, fun hc hs => ?_, fun hc => ?_,
    fun program hc => ?_, fun c hc hrun hreset hconstruct => ?_, fun hr hp => ?_⟩
  · rcases step_running_status hr h with hs | ⟨hs, -⟩ | ⟨hs, -⟩ | hs <;> simp [hs]
  · rcases step_running_status hr h with hs | ⟨hs, -⟩ | ⟨-, hx⟩ | hs
    · simp [hs] at hh
    · simp [hs] at hh
    · exact hx
    · simp [hs] at hh
  · rcases step_running_status hr h with hs | ⟨-, hq⟩ | ⟨hs, -⟩ | hs
    · simp [hs] at hb
    · exact hq
    · simp [hs] at hb
    · simp [hs] at hb
  · obtain ⟨p, rfl⟩ := step_commanded hc h
    simp [hostCommand_run hs]
  · obtain ⟨p, rfl⟩ := step_commanded hc h
    simp [hostCommand_run_halted hs, hs]
  · obtain ⟨p, rfl⟩ := step_commanded hc h
    rfl
  · obtain ⟨p, rfl⟩ := step_commanded hc h
    exact (hostCommand_effect _ s).construct_status
  · obtain ⟨p, rfl⟩ := step_commanded hc h
    exact (hostCommand_effect c s).status hrun hreset hconstruct
  · rw [step_idle hr hp] at h
    cases h
    rfl

/-! ### The port (60_exceptions.md R211) -/

theorem returnFromRun_port_of_running (h : s.status = .running) : (returnFromRun s).port = s.port := by
  simp [stopReason, h]

/-- Settles O50: an instruction keeps the port, and the run's return appends a reply only when it has ended. -/
theorem commandsWaitWhileRunning : Obligations.CommandsWaitWhileRunning := by
  unfold Obligations.CommandsWaitWhileRunning
  intro s t hr h
  rcases step_running_cases hr h with ⟨f, rfl, -⟩ | ⟨rfl, -⟩ | ⟨rfl, -⟩ | ⟨i, e, -, rfl, -⟩
  · exact ⟨rfl, nofun⟩
  · exact ⟨rfl, nofun⟩
  · exact ⟨rfl, nofun⟩
  · rw [returnFromRun_port_of_running (s := commit e s) hr]
    exact ⟨rfl, fun _ => rfl⟩

/-! ### The input queue (60_exceptions.md R225) -/

theorem executes_wellFormed {i : Instr} (h : executes s i) : i.wellFormed = true := (decode_ok_code h.2.2).2

/-- What the step of an input instruction does: it blocks on an empty IQ, takes an address fault, or moves the front of IQ
to its target. -/
theorem step_input {m1 : Mode} (hx : executes s (.input m1)) (h : step s = .next t) :
    (s.iq = [] ∧ t.status = .blocked) ∨ (s.iq ≠ [] ∧ t.status = .faulted) ∨
      ∃ x rest, s.iq = x :: rest ∧ t.status = .running ∧ t.iq = rest ∧
        t.mem = s.mem.write (targetAddress 1 m1 s) x := by
  have hm : m1 ≠ .immediate := Mode.writable_eq_true.mp (executes_wellFormed hx)
  cases hq : s.iq with
  | nil =>
    rw [step_executes hx (exec_input_blocks hq)] at h
    cases h
    exact .inl ⟨rfl, rfl⟩
  | cons x rest =>
    cases hp : operandProblem 1 m1 s with
    | some f =>
      rw [step_executes hx (exec_input_problem hm (by simp [hq]) hp)] at h
      cases h
      exact .inr (.inl ⟨by simp, rfl⟩)
    | none =>
      rw [step_executes hx (exec_input_consumes hm hq hp)] at h
      cases h
      exact .inr (.inr ⟨x, rest, rfl, hx.1, rfl, rfl⟩)

/-- An add_input that is replied to with ok has appended its word. -/
theorem step_addInput_ok {v : Int} (hc : commanded s (.addInput v)) (h : step s = .next t)
    (hok : t.port.replies = s.port.replies ++ [.ok]) : t.iq = s.iq ++ [v] := by
  obtain ⟨hs, hp⟩ := hc
  obtain ⟨rest, hp⟩ := List.head?_eq_some_iff.mp hp
  cases ha : addInput v s with
  | none =>
    rw [step_acknowledge_none hs hp (congrArg (acknowledge s) ha)] at h
    cases h
    simp at hok
  | some u =>
    rw [step_acknowledge_some hs hp (congrArg (acknowledge s) ha)] at h
    cases h
    unfold addInput at ha
    split_ifs at ha
    cases ha
    rfl

/-- Which event can change IQ, and how. -/
theorem step_iq (h : step s = .next t) :
    t.iq = s.iq ∨ ((∃ m1, executes s (.input m1)) ∧ ∃ x, s.iq = x :: t.iq) ∨
      (∃ v, commanded s (.addInput v) ∧ t.iq = s.iq ++ [v]) ∨ (commanded s .reset ∧ t.iq = []) ∨
      ∃ program, commanded s (.construct program) ∧ t.iq = [] := by
  by_cases hr : s.status = .running
  · rcases step_running_cases hr h with ⟨f, rfl, -⟩ | ⟨rfl, -⟩ | ⟨rfl, -⟩ | ⟨i, e, hx, rfl, he⟩
    · exact .inl rfl
    · exact .inl rfl
    · exact .inl rfl
    · rcases he.dequeues with ⟨hd, ⟨m1, rfl⟩, hq⟩ | ⟨hd, -⟩
      · obtain ⟨x, rest, hq⟩ := List.exists_cons_of_ne_nil hq
        exact .inr (.inl ⟨⟨m1, hx⟩, x, by simp [hd, hq]⟩)
      · exact .inl (by simp [hd])
  · obtain ⟨-, rfl⟩ | ⟨c, u, p, hc, he, rfl⟩ := step_host_cases hr h
    · exact .inl rfl
    · cases he with
      | inputAdded v => exact .inr (.inr (.inl ⟨v, hc, rfl⟩))
      | wasReset => exact .inr (.inr (.inr (.inl ⟨hc, rfl⟩)))
      | constructed program => exact .inr (.inr (.inr (.inr ⟨program, hc, rfl⟩)))
      | _ => exact .inl rfl

/-- Settles O29: which event changes IQ is `step_iq`, and what each event does is its own lemma. -/
theorem inputQueueIsFifo : Obligations.InputQueueIsFifo := by
  unfold Obligations.InputQueueIsFifo
  refine fun s t h => ⟨step_iq h, fun v hc => step_addInput_ok hc h, fun m1 x rest hx hq hs => ?_, fun m1 hx => ?_,
    fun hc => ?_⟩
  · rcases step_input hx h with ⟨hnil, -⟩ | ⟨-, hf⟩ | ⟨y, rest', hq', -, htail, hmem⟩
    · simp [hq] at hnil
    · exact absurd hf hs
    · rw [hq] at hq'
      cases hq'
      exact ⟨htail, hmem⟩
  · rcases step_input hx h with ⟨hnil, hb⟩ | ⟨hq, hf⟩ | ⟨x, rest, hq, hrun, -⟩
    · simp [hnil, hb]
    · simp [hq, hf]
    · simp [hq, hrun]
  · obtain ⟨p, rfl⟩ := step_commanded hc h
    rfl

/-! ### The output queue (60_exceptions.md R226) -/

theorem step_output {m1 : Mode} (hx : executes s (.output m1)) (h : step s = .next t) :
    t.status = .faulted ∨ t.oq = s.oq ++ [operandValue 1 m1 s] := by
  cases hp : operandProblem 1 m1 s with
  | some f =>
    rw [step_executes hx (exec_output_problem hp)] at h
    cases h
    exact .inl rfl
  | none =>
    by_cases hq : s.config.oqCap = some s.oq.length
    · rw [step_executes hx (exec_output_full hp hq)] at h
      cases h
      exact .inl rfl
    · rw [step_executes hx (exec_output_appends hp hq)] at h
      cases h
      exact .inr rfl

/-- Which event can change OQ, and how. -/
theorem step_oq (h : step s = .next t) :
    t.oq = s.oq ∨ (∃ m1, executes s (.output m1) ∧ t.oq = s.oq ++ [operandValue 1 m1 s]) ∨
      (commanded s .popOutput ∧ t.oq = s.oq.tail) ∨ ∃ program, commanded s (.construct program) ∧ t.oq = [] := by
  by_cases hr : s.status = .running
  · rcases step_running_cases hr h with ⟨f, rfl, -⟩ | ⟨rfl, -⟩ | ⟨rfl, -⟩ | ⟨i, e, hx, rfl, he⟩
    · exact .inl rfl
    · exact .inl rfl
    · exact .inl rfl
    · rcases he.commit_oq with hq | ⟨m1, rfl, -, hq⟩
      · exact .inl hq
      · exact .inr (.inl ⟨m1, hx, hq⟩)
  · obtain ⟨-, rfl⟩ | ⟨c, u, p, hc, he, rfl⟩ := step_host_cases hr h
    · exact .inl rfl
    · cases he with
      | outputPopped => exact .inr (.inr (.inl ⟨hc, rfl⟩))
      | constructed program => exact .inr (.inr (.inr ⟨program, hc, rfl⟩))
      | _ => exact .inl rfl

/-- Settles O30: which event changes OQ is `step_oq`, and what each event does is its own lemma. -/
theorem outputQueueIsFifo : Obligations.OutputQueueIsFifo := by
  unfold Obligations.OutputQueueIsFifo
  refine fun s t h => ⟨step_oq h, fun m1 hx hs => (step_output hx h).resolve_left hs, fun hc => ?_, fun hc => ?_,
    fun hr hs => ?_⟩
  · obtain ⟨p, rfl⟩ := step_commanded hc h
    rfl
  · obtain ⟨p, rfl⟩ := step_commanded hc h
    rfl
  · obtain ⟨f, rfl, -⟩ := step_faulted_cases hr h hs
    rfl

end Sys2Proof.Machine

/-! PROOFS. No instruction reads `status`, `halted`, `fault` or the port: on two cores that differ in these alone an
instruction ends the same way, with the same record or the same staged effects. Hence the same fault recurs on a retry, and
a blocked input is run again. -/

namespace Sys2Proof.Machine

/-! ### Cores that differ in their control state -/

/-- `s` with another control state: `halted`, `status`, `fault` and the port. -/
def withControl (s : State) (hb : Bool) (st : Status) (fr : FaultRecord) (po : HostPort) : State :=
  { s with halted := hb, status := st, fault := fr, port := po }

/-- How an instruction ends. -/
inductive Ending where
  | fault (p : FaultRecord)
  | block
  | halt
  | commit (e : Effects)

/-- The state an ending leaves. -/
def Ending.apply : Ending → State → State
  | .fault p, s => takeFault p s
  | .block, s => takeBlock s
  | .halt, s => takeHalt s
  | .commit e, s => Machine.commit e s

/-- The outcomes `o` from `s` and `o'` from `u` are the same ending. -/
def SameEnding (s u : State) (o o' : Host.Outcome State Fault Refusal) : Prop :=
  ∃ x : Ending, o = .next (x.apply s) ∧ o' = .next (x.apply u)

theorem orFault_sameEnding {s u : State} {α : Type} {r r' : Except FaultRecord α}
    {k k' : α → Host.Outcome State Fault Refusal} (hr : r' = r) (hk : ∀ a, SameEnding s u (k a) (k' a)) :
    SameEnding s u (orFault r s k) (orFault r' u k') := by
  subst hr
  cases r' with
  | error p => exact ⟨.fault p, rfl, rfl⟩
  | ok a => exact hk a

theorem fault_sameEnding {s u : State} {p p' : FaultRecord} (hp : p' = p) :
    SameEnding s u (.next (takeFault p s)) (.next (takeFault p' u)) := by
  subst hp
  exact ⟨.fault p', rfl, rfl⟩

theorem commit_sameEnding {s u : State} {e e' : Effects} (he : e' = e) :
    SameEnding s u (.next (commit e s)) (.next (commit e' u)) := by
  subst he
  exact ⟨.commit e', rfl, rfl⟩

section

variable (s : State) (hb : Bool) (st : Status) (fr : FaultRecord) (po : HostPort)

/-! The stages of an instruction read none of the control state. -/

theorem readOperand_withControl (k : Fin 4) (m : Mode) :
    readOperand k m (withControl s hb st fr po) = readOperand k m s := rfl

theorem writeTarget_withControl (k : Fin 4) (m : Mode) :
    writeTarget k m (withControl s hb st fr po) = writeTarget k m s := rfl

theorem checkWord_withControl (r : Int) : checkWord r (withControl s hb st fr po) = checkWord r s := rfl

theorem fetch_withControl : fetch (withControl s hb st fr po) = fetch s := rfl

theorem storeBinary_sameEnding {f f' : Word → Word → Except FaultRecord Word} (hf : ∀ a b, f' a b = f a b)
    (m1 m2 m3 : Mode) :
    SameEnding s (withControl s hb st fr po) (storeBinary f m1 m2 m3 s)
      (storeBinary f' m1 m2 m3 (withControl s hb st fr po)) :=
  orFault_sameEnding (readOperand_withControl ..) fun _ =>
  orFault_sameEnding (readOperand_withControl ..) fun _ =>
  orFault_sameEnding (writeTarget_withControl ..) fun _ =>
  orFault_sameEnding (hf _ _) fun _ => commit_sameEnding rfl

theorem jumpWhen_sameEnding (taken : Word → Bool) (m1 m2 : Mode) :
    SameEnding s (withControl s hb st fr po) (jumpWhen taken m1 m2 s)
      (jumpWhen taken m1 m2 (withControl s hb st fr po)) := by
  refine orFault_sameEnding (readOperand_withControl ..) fun a =>
    orFault_sameEnding (readOperand_withControl ..) fun b => ?_
  split_ifs
  · exact fault_sameEnding rfl
  · exact commit_sameEnding rfl
  · exact commit_sameEnding rfl

theorem execInput_sameEnding (m1 : Mode) :
    SameEnding s (withControl s hb st fr po) (execInput m1 s) (execInput m1 (withControl s hb st fr po)) := by
  have iq : (withControl s hb st fr po).iq = s.iq := rfl
  unfold execInput
  rw [iq]
  cases s.iq with
  | nil => exact ⟨.block, rfl, rfl⟩
  | cons x rest => exact orFault_sameEnding (writeTarget_withControl ..) fun _ => commit_sameEnding rfl

theorem execOutput_sameEnding (m1 : Mode) :
    SameEnding s (withControl s hb st fr po) (execOutput m1 s) (execOutput m1 (withControl s hb st fr po)) := by
  have full : queueFull (withControl s hb st fr po).config.oqCap (withControl s hb st fr po).oq.length =
    queueFull s.config.oqCap s.oq.length := rfl
  refine orFault_sameEnding (readOperand_withControl ..) fun a => ?_
  rw [full]
  split_ifs
  · exact fault_sameEnding rfl
  · exact commit_sameEnding rfl

theorem exec_sameEnding (i : Instr) :
    SameEnding s (withControl s hb st fr po) (exec i s) (exec i (withControl s hb st fr po)) := by
  cases i with
  | add m1 m2 m3 => exact storeBinary_sameEnding s hb st fr po (fun _ _ => checkWord_withControl ..) m1 m2 m3
  | mul m1 m2 m3 => exact storeBinary_sameEnding s hb st fr po (fun _ _ => checkWord_withControl ..) m1 m2 m3
  | lessThan m1 m2 m3 =>
    rw [exec_lessThan, exec_lessThan]
    exact storeBinary_sameEnding s hb st fr po (fun _ _ => rfl) m1 m2 m3
  | equals m1 m2 m3 =>
    rw [exec_equals, exec_equals]
    exact storeBinary_sameEnding s hb st fr po (fun _ _ => rfl) m1 m2 m3
  | jumpIfTrue m1 m2 => exact jumpWhen_sameEnding s hb st fr po wordIsTrue m1 m2
  | jumpIfFalse m1 m2 => exact jumpWhen_sameEnding s hb st fr po (fun a => !wordIsTrue a) m1 m2
  | input m1 => exact execInput_sameEnding s hb st fr po m1
  | output m1 => exact execOutput_sameEnding s hb st fr po m1
  | adjustBase m1 =>
    exact orFault_sameEnding (readOperand_withControl ..) fun _ =>
      orFault_sameEnding (checkWord_withControl ..) fun _ => commit_sameEnding rfl
  | halt => exact ⟨.halt, rfl, rfl⟩

theorem instructionStep_sameEnding :
    SameEnding s (withControl s hb st fr po) (instructionStep s) (instructionStep (withControl s hb st fr po)) := by
  unfold instructionStep
  rw [fetch_withControl]
  cases fetch s with
  | error p => exact fault_sameEnding rfl
  | ok w =>
    simp only
    cases decode w with
    | error e => exact fault_sameEnding (by cases e <;> rfl)
    | ok i => exact exec_sameEnding s hb st fr po i

end

/-- Settles O34: both cores end the same way, and each ending treats the control state as the statement says. -/
theorem controlStateIsNotRead : Obligations.ControlStateIsNotRead := by
  unfold Obligations.ControlStateIsNotRead
  intro s t u v i hu ht hv
  obtain ⟨x, hs, hu'⟩ := exec_sameEnding s u.halted u.status u.fault u.port i
  have core : u = withControl s u.halted u.status u.fault u.port := hu
  rw [← core] at hu'
  obtain rfl : x.apply s = t := Host.Outcome.next.inj (hs.symm.trans ht)
  obtain rfl : x.apply u = v := Host.Outcome.next.inj (hu'.symm.trans hv)
  rw [core]
  cases x with
  | fault p => exact ⟨rfl, rfl, rfl, rfl, rfl, rfl, rfl, rfl, rfl, .inr (.inl ⟨rfl, rfl, rfl, rfl, rfl⟩)⟩
  | block => exact ⟨rfl, rfl, rfl, rfl, rfl, rfl, rfl, rfl, rfl, .inr (.inr (.inl ⟨rfl, rfl, rfl, rfl, rfl, rfl⟩))⟩
  | halt => exact ⟨rfl, rfl, rfl, rfl, rfl, rfl, rfl, rfl, rfl, .inr (.inr (.inr ⟨rfl, rfl, rfl, rfl, rfl, rfl⟩))⟩
  | commit e => exact ⟨rfl, rfl, rfl, rfl, rfl, rfl, rfl, rfl, rfl, .inl ⟨rfl, rfl, rfl, rfl, rfl, rfl⟩⟩

/-! ### Runs of the core -/

theorem run_succ {M : Host.Core} {s t : M.State} {k : Nat} (h : M.step s = .next t) : M.run (k + 1) s = M.run k t := by
  rw [Host.Core.run, h]

theorem core_run_succ {s t : State} {k : Nat} (h : step s = .next t) : core.run (k + 1) s = core.run k t :=
  run_succ (M := core) (s := s) (t := t) h

/-- A step that leaves a core FAULTED has taken a fault, and the same instruction takes it again on that core with any other
control state. -/
theorem step_faulted_retry {s t : State} (hr : s.status = .running) (h : step s = .next t) (ht : t.status = .faulted)
    (hb : Bool) (st : Status) (fr : FaultRecord) (po : HostPort) :
    ∃ f, t = returnFromRun (takeFault f s) ∧
      instructionStep (withControl s hb st fr po) = .next (takeFault f (withControl s hb st fr po)) := by
  obtain ⟨x, hs, hu⟩ := instructionStep_sameEnding s hb st fr po
  rw [step_running hr, hs] at h
  cases h
  cases x with
  | fault f => exact ⟨f, rfl, hu⟩
  | block => cases ht
  | halt => cases ht
  | commit e => simp [Ending.apply, hr] at ht

/-- Settles O53: run clears the record and changes the control state alone, so the same fault is taken. -/
theorem faultRecursOnRetry : Obligations.FaultRecursOnRetry := by
  unfold Obligations.FaultRecursOnRetry
  intro s t rest hr h ht hp
  obtain ⟨f, rfl, hretry⟩ := step_faulted_retry hr h ht s.halted .running FaultRecord.empty
    { pending := rest, replies := t.port.replies }
  have entered := step_run (s := returnFromRun (takeFault f s)) hp (by simp) (by simp)
  exact (core_run_succ entered).trans (core_run_succ (step_takeFault rfl hretry))

/-- A BLOCKED core that is given a word and run is RUNNING with that word in IQ. -/
theorem run_addInput_run {s : State} {v : Int} {rest : List Command} (hs : s.status = .blocked)
    (hp : s.port.pending = .addInput v :: .run :: rest) (hw : inWord s.config v = true)
    (hcap : s.config.iqCap ≠ some s.iq.length) :
    core.run 2 s = .next { s with
      iq := s.iq ++ [v], status := .running, fault := FaultRecord.empty,
      port := { pending := rest, replies := s.port.replies ++ [.ok] } } := by
  have added := step_acknowledge_some (by simp [hs]) hp (congrArg (acknowledge s) (addInput_accepted hw hcap))
  rw [core_run_succ added, core_run_succ (step_run rfl (by simp [hs]) (by simp [hs]))]
  rfl

/-- Settles O52: the input blocks, add_input appends, and run starts at the PC the core still has. -/
theorem blockedInputResumes : Obligations.BlockedInputResumes := by
  unfold Obligations.BlockedInputResumes
  intro s m1 v rest hx hq hp hw hcap
  have room : s.config.iqCap ≠ some s.iq.length := by simpa [hq] using hcap
  have resumed := run_addInput_run (s := returnFromRun { s with status := .blocked }) rfl hp hw room
  rw [core_run_succ (step_executes hx (exec_input_blocks hq)), resumed]
  simp [hq, stopReason]

end Sys2Proof.Machine
